-- ==== Sys2Proof/Word.lean ====
section
/-! DEFINITION. The words of the machine and of its instruction fields (00_scope.md R6, R12, R13; 30_encoding.md R68). -/

namespace Sys2Proof

/-- One byte of memory (R41). -/
abbrev Byte := BitVec 8

/-- A register, pc, address, instruction or data word: XLEN is 32 (R6, R13). -/
abbrev Word := BitVec 32

/-- A double-width product (R98, R99). -/
abbrev DoubleWord := BitVec 64

/-- A register number, as the 5-bit fields rs, rt and rd give it (R17, R68). -/
abbrev RegNum := BitVec 5

/-- A shift amount, 0 to 31 (R68, R95). -/
abbrev Shamt := BitVec 5

/-- The immediate or offset field (R68). -/
abbrev Imm16 := BitVec 16

/-- The jump target field (R68). -/
abbrev Target26 := BitVec 26

end Sys2Proof
end

