-- ==== Sys2Proof/Syntax.lean ====
section
/-! DEFINITION. The 42 instructions (00_scope.md R2), one constructor for each row of the opcode table and in the table's
order. A constructor's arguments are the fields the instruction's rule names, in the assembler's order (30_encoding.md
R81). Every field is exactly as wide as its type, so every term of `Instr` is an instruction of the hardware. -/

namespace Sys2Proof

/-- An instruction. -/
inductive Instr where
  | sll (rd rt : RegNum) (shamt : Shamt)
  | srl (rd rt : RegNum) (shamt : Shamt)
  | sra (rd rt : RegNum) (shamt : Shamt)
  | jr (rs : RegNum)
  | jalr (rd rs : RegNum)
  | syscall
  | mfhi (rd : RegNum)
  | mthi (rs : RegNum)
  | mflo (rd : RegNum)
  | mtlo (rs : RegNum)
  | mult (rs rt : RegNum)
  | multu (rs rt : RegNum)
  | div (rs rt : RegNum)
  | divu (rs rt : RegNum)
  | add (rd rs rt : RegNum)
  | addu (rd rs rt : RegNum)
  | sub (rd rs rt : RegNum)
  | subu (rd rs rt : RegNum)
  | and (rd rs rt : RegNum)
  | or (rd rs rt : RegNum)
  | xor (rd rs rt : RegNum)
  | nor (rd rs rt : RegNum)
  | slt (rd rs rt : RegNum)
  | j (target : Target26)
  | jal (target : Target26)
  | beq (rs rt : RegNum) (imm : Imm16)
  | bne (rs rt : RegNum) (imm : Imm16)
  | blez (rs : RegNum) (imm : Imm16)
  | bgtz (rs : RegNum) (imm : Imm16)
  | addi (rt rs : RegNum) (imm : Imm16)
  | addiu (rt rs : RegNum) (imm : Imm16)
  | slti (rt rs : RegNum) (imm : Imm16)
  | andi (rt rs : RegNum) (imm : Imm16)
  | ori (rt rs : RegNum) (imm : Imm16)
  | xori (rt rs : RegNum) (imm : Imm16)
  | lui (rt : RegNum) (imm : Imm16)
  | lb (rt rs : RegNum) (imm : Imm16)
  | lh (rt rs : RegNum) (imm : Imm16)
  | lw (rt rs : RegNum) (imm : Imm16)
  | sb (rt rs : RegNum) (imm : Imm16)
  | sh (rt rs : RegNum) (imm : Imm16)
  | sw (rt rs : RegNum) (imm : Imm16)
  deriving DecidableEq, Repr

end Sys2Proof
end

