-- ==== Sys2Proof/Decode.lean ====
section
/-! DEFINITION. The decoder and the encoder (30_encoding.md R68 to R78), from the spec's own tables. The Decoder cuts
every field from every word and checks nothing (R7, R71); the two-level dispatch of R73 to R75 selects the instruction;
a word with no row is rejected by name (R76, R77). -/

namespace Sys2Proof

/-- The tuple of all fields cut from one word (R7). -/
structure DecodedInstruction where
  opcode   : BitVec 6
  rs       : RegNum
  rt       : RegNum
  rd       : RegNum
  shamt    : Shamt
  funct    : BitVec 6
  imm16    : Imm16
  target26 : Target26
  deriving DecidableEq, Repr

/-- Why a word or a run of bytes is no instruction. -/
inductive Reject where
  /-- the opcode is not 0 and has no row in R74 (R76) -/
  | illegalOpcode (opcode : BitVec 6)
  /-- the opcode is 0 and the funct has no row in R75 (R77) -/
  | illegalFunct (funct : BitVec 6)
  /-- fewer than the 4 bytes of an instruction (R69) -/
  | truncated
  deriving DecidableEq, Repr

/-- The Decoder: every field at its fixed place, from every word (R7, R68). -/
def cutFields (w : Word) : DecodedInstruction where
  opcode   := w.extractLsb' 26 6
  rs       := w.extractLsb' 21 5
  rt       := w.extractLsb' 16 5
  rd       := w.extractLsb' 11 5
  shamt    := w.extractLsb' 6 5
  funct    := w.extractLsb' 0 6
  imm16    := w.extractLsb' 0 16
  target26 := w.extractLsb' 0 26

/-- The funct map, for opcode 0 (R75). -/
def selectRegister (d : DecodedInstruction) : Except Reject Instr :=
  match d.funct with
  | 0x00#6 => .ok (.sll d.rd d.rt d.shamt)
  | 0x02#6 => .ok (.srl d.rd d.rt d.shamt)
  | 0x03#6 => .ok (.sra d.rd d.rt d.shamt)
  | 0x08#6 => .ok (.jr d.rs)
  | 0x09#6 => .ok (.jalr d.rd d.rs)
  | 0x0C#6 => .ok .syscall
  | 0x10#6 => .ok (.mfhi d.rd)
  | 0x11#6 => .ok (.mthi d.rs)
  | 0x12#6 => .ok (.mflo d.rd)
  | 0x13#6 => .ok (.mtlo d.rs)
  | 0x18#6 => .ok (.mult d.rs d.rt)
  | 0x19#6 => .ok (.multu d.rs d.rt)
  | 0x1A#6 => .ok (.div d.rs d.rt)
  | 0x1B#6 => .ok (.divu d.rs d.rt)
  | 0x20#6 => .ok (.add d.rd d.rs d.rt)
  | 0x21#6 => .ok (.addu d.rd d.rs d.rt)
  | 0x22#6 => .ok (.sub d.rd d.rs d.rt)
  | 0x23#6 => .ok (.subu d.rd d.rs d.rt)
  | 0x24#6 => .ok (.and d.rd d.rs d.rt)
  | 0x25#6 => .ok (.or d.rd d.rs d.rt)
  | 0x26#6 => .ok (.xor d.rd d.rs d.rt)
  | 0x27#6 => .ok (.nor d.rd d.rs d.rt)
  | 0x2A#6 => .ok (.slt d.rd d.rs d.rt)
  | f => .error (.illegalFunct f)

/-- The primary opcode map, for an opcode other than 0 (R74). -/
def selectPrimary (d : DecodedInstruction) : Except Reject Instr :=
  match d.opcode with
  | 0x02#6 => .ok (.j d.target26)
  | 0x03#6 => .ok (.jal d.target26)
  | 0x04#6 => .ok (.beq d.rs d.rt d.imm16)
  | 0x05#6 => .ok (.bne d.rs d.rt d.imm16)
  | 0x06#6 => .ok (.blez d.rs d.imm16)
  | 0x07#6 => .ok (.bgtz d.rs d.imm16)
  | 0x08#6 => .ok (.addi d.rt d.rs d.imm16)
  | 0x09#6 => .ok (.addiu d.rt d.rs d.imm16)
  | 0x0A#6 => .ok (.slti d.rt d.rs d.imm16)
  | 0x0C#6 => .ok (.andi d.rt d.rs d.imm16)
  | 0x0D#6 => .ok (.ori d.rt d.rs d.imm16)
  | 0x0E#6 => .ok (.xori d.rt d.rs d.imm16)
  | 0x0F#6 => .ok (.lui d.rt d.imm16)
  | 0x20#6 => .ok (.lb d.rt d.rs d.imm16)
  | 0x21#6 => .ok (.lh d.rt d.rs d.imm16)
  | 0x23#6 => .ok (.lw d.rt d.rs d.imm16)
  | 0x28#6 => .ok (.sb d.rt d.rs d.imm16)
  | 0x29#6 => .ok (.sh d.rt d.rs d.imm16)
  | 0x2B#6 => .ok (.sw d.rt d.rs d.imm16)
  | op => .error (.illegalOpcode op)

/-- Two-level dispatch: "if `opcode == 0`, dispatch on `funct` …; otherwise dispatch on `opcode` directly" (R73). -/
def selectInstr (d : DecodedInstruction) : Except Reject Instr :=
  if d.opcode = 0 then selectRegister d else selectPrimary d

/-- The instruction a word stands for, or why it is illegal (R73, R78). -/
def decodeWord (w : Word) : Except Reject Instr := selectInstr (cutFields w)

/-- Four bytes, the first at the lowest address, as one little-endian word (20_memory.md R55). -/
def wordOfBytes (b0 b1 b2 b3 : Byte) : Word := b3 ++ b2 ++ b1 ++ b0

/-- The four bytes of a word, the one at the lowest address first (R55). -/
def bytesOfWord (w : Word) : List Byte :=
  [w.extractLsb' 0 8, w.extractLsb' 8 8, w.extractLsb' 16 8, w.extractLsb' 24 8]

/-- Decoding from bytes: the first instruction and the bytes after it. Every instruction is 4 bytes (R68, R69). -/
def decodeBytes : List Byte → Except Reject (Instr × List Byte)
  | b0 :: b1 :: b2 :: b3 :: rest =>
    match decodeWord (wordOfBytes b0 b1 b2 b3) with
    | .ok i => .ok (i, rest)
    | .error e => .error e
  | _ => .error .truncated

/-- An R-format word: opcode 0 (R70). -/
def packR (rs rt rd : RegNum) (shamt : Shamt) (funct : BitVec 6) : Word := 0#6 ++ rs ++ rt ++ rd ++ shamt ++ funct

/-- An I-format word (R70). -/
def packI (opcode : BitVec 6) (rs rt : RegNum) (imm : Imm16) : Word := opcode ++ rs ++ rt ++ imm

/-- A J-format word (R70). -/
def packJ (opcode : BitVec 6) (target : Target26) : Word := opcode ++ target

/-- The word of an instruction, from the encoding tables (R68, R70, R74, R75). A field the instruction does not use is
written as 0, as R81 writes the rt of blez and bgtz. DESIGN CHOICE (log 10): the decoder ignores those fields (R71), so
another value of them is another word of the same instruction. -/
def encode : Instr → Word
  | .sll rd rt shamt => packR 0#5 rt rd shamt 0x00#6
  | .srl rd rt shamt => packR 0#5 rt rd shamt 0x02#6
  | .sra rd rt shamt => packR 0#5 rt rd shamt 0x03#6
  | .jr rs => packR rs 0#5 0#5 0#5 0x08#6
  | .jalr rd rs => packR rs 0#5 rd 0#5 0x09#6
  | .syscall => packR 0#5 0#5 0#5 0#5 0x0C#6
  | .mfhi rd => packR 0#5 0#5 rd 0#5 0x10#6
  | .mthi rs => packR rs 0#5 0#5 0#5 0x11#6
  | .mflo rd => packR 0#5 0#5 rd 0#5 0x12#6
  | .mtlo rs => packR rs 0#5 0#5 0#5 0x13#6
  | .mult rs rt => packR rs rt 0#5 0#5 0x18#6
  | .multu rs rt => packR rs rt 0#5 0#5 0x19#6
  | .div rs rt => packR rs rt 0#5 0#5 0x1A#6
  | .divu rs rt => packR rs rt 0#5 0#5 0x1B#6
  | .add rd rs rt => packR rs rt rd 0#5 0x20#6
  | .addu rd rs rt => packR rs rt rd 0#5 0x21#6
  | .sub rd rs rt => packR rs rt rd 0#5 0x22#6
  | .subu rd rs rt => packR rs rt rd 0#5 0x23#6
  | .and rd rs rt => packR rs rt rd 0#5 0x24#6
  | .or rd rs rt => packR rs rt rd 0#5 0x25#6
  | .xor rd rs rt => packR rs rt rd 0#5 0x26#6
  | .nor rd rs rt => packR rs rt rd 0#5 0x27#6
  | .slt rd rs rt => packR rs rt rd 0#5 0x2A#6
  | .j target => packJ 0x02#6 target
  | .jal target => packJ 0x03#6 target
  | .beq rs rt imm => packI 0x04#6 rs rt imm
  | .bne rs rt imm => packI 0x05#6 rs rt imm
  | .blez rs imm => packI 0x06#6 rs 0#5 imm
  | .bgtz rs imm => packI 0x07#6 rs 0#5 imm
  | .addi rt rs imm => packI 0x08#6 rs rt imm
  | .addiu rt rs imm => packI 0x09#6 rs rt imm
  | .slti rt rs imm => packI 0x0A#6 rs rt imm
  | .andi rt rs imm => packI 0x0C#6 rs rt imm
  | .ori rt rs imm => packI 0x0D#6 rs rt imm
  | .xori rt rs imm => packI 0x0E#6 rs rt imm
  | .lui rt imm => packI 0x0F#6 0#5 rt imm
  | .lb rt rs imm => packI 0x20#6 rs rt imm
  | .lh rt rs imm => packI 0x21#6 rs rt imm
  | .lw rt rs imm => packI 0x23#6 rs rt imm
  | .sb rt rs imm => packI 0x28#6 rs rt imm
  | .sh rt rs imm => packI 0x29#6 rs rt imm
  | .sw rt rs imm => packI 0x2B#6 rs rt imm

/-- The imm16 of a branch at address `a` to a label at address `l`: `((L - A) >> 2)[15:0]` (R82). -/
def branchField (a l : Word) : Imm16 := ((l - a) >>> 2).extractLsb' 0 16

/-- The target26 of a jump to a label at address `l`: `L[27:2]` (R82). -/
def jumpField (l : Word) : Target26 := l.extractLsb' 2 26

/-- The instruction the decoder reads from an instruction whose bits are `w`, bit 0 the least significant bit of the
word (the opcode table's numbering); every bit above `nbits` is 0. -/
def decodeTableWord (nbits w : Nat) : Option Instr :=
  match decodeBytes (bytesOfWord (BitVec.ofNat 32 (w % 2 ^ nbits))) with
  | .ok (i, _) => some i
  | .error _ => none

end Sys2Proof
end

