-- ==== Sys2Proof/Machine/Flags.lean ====
section
/-! DEFINITION. The core has no status flags (10_state.md R22): "Comparisons (slt, slti) write 0 or 1 into a general
register, and branches compare general registers directly." These are those comparisons. -/

namespace Sys2Proof.Machine

/-- `if signed(a) < signed(b) then 1 else 0` (R94, R110). -/
def setOnLess (a b : Word) : Word := if a.toInt < b.toInt then 1#32 else 0#32

/-- `signed(a) <= 0` (R125). -/
def atMostZero (a : Word) : Bool := a.toInt ≤ 0

/-- `signed(a) > 0` (R126). -/
def aboveZero (a : Word) : Bool := 0 < a.toInt

end Sys2Proof.Machine
end

