-- ==== Sys2Proof/Config.lean ====
section
/-! DEFINITION. The parameters of the hardware (00_scope.md R6): the region map, TEXT_BASE, the program image the host
configures, and HARDWIRE_R0; with the spec's default values of the open ones. -/

namespace Sys2Proof

/-- One entry of REGIONS: a name and an inclusive range of byte addresses (20_memory.md R42, R45). Its bytes stand in the
machine's memory. -/
structure Region where
  name  : String
  base  : Word
  limit : Word
  deriving DecidableEq, Repr

/-- What the platform fixes: REGIONS and TEXT_BASE, both OPEN (R6, D3, D4), and the program image, "the host's
configuration, a finite list of 32-bit words" (70_reset_and_hazards.md R155). DESIGN CHOICE (log 1): the machine's state
carries it, and no step changes it, so that a claim about every state is a claim about every value of the parameters. -/
structure Config where
  regions  : List Region
  textBase : Word
  image    : List Word
  deriving DecidableEq, Repr

/-- HARDWIRE_R0: false, register 0 is ordinary storage (R6, R18, D20). -/
def hardwireR0 : Bool := false

/-- The spec's default region map (20_memory.md R49), which it marks as general knowledge. PRESUMED (log 1): used by
`Config.default` alone. -/
def defaultRegions : List Region :=
  [ ⟨"text",  0x00400000#32, 0x004FFFFF#32⟩,
    ⟨"data",  0x10000000#32, 0x100FFFFF#32⟩,
    ⟨"stack", 0x7FF00000#32, 0x7FFFFFFF#32⟩,
    ⟨"ktext", 0x80000000#32, 0x800FFFFF#32⟩,
    ⟨"kdata", 0x90000000#32, 0x900FFFFF#32⟩ ]

/-- The configuration of `State.reset`: the spec's default map and TEXT_BASE (R6, R49; PRESUMED, log 1 and 2), and no
program (DESIGN CHOICE, log 3). -/
def Config.default : Config := ⟨defaultRegions, 0x00400000#32, []⟩

end Sys2Proof
end

