-- ==== Sys2Proof/Machine/State.lean ====
section
/-! DEFINITION. The state of the core (10_state.md R17 to R40): the architectural state held twice, as CURRENT and NEXT;
the RunFlag; the stop record; the InstructionCounter; memory; the platform's configuration; and the word of the step in
progress. All of it is plain data. -/

namespace Sys2Proof.Machine

/-- A reason the machine stops without a next state. There is none: no access, operand, encoding or pc faults (R145), and
a stop condition is a next state with the RunFlag cleared (R137). Nobody raises one, and that is exact (log 7). -/
inductive Fault : Type
  deriving DecidableEq, Repr

/-- A reason a step is refused. -/
inductive Refusal where
  /-- the arm of an instruction without a meaning. Every instruction has its meaning, so no arm of `exec` raises it; a
  refusal would be safe. -/
  | notModelled (mnemonic : String)
  deriving DecidableEq, Repr

/-- The 32 general registers (R17). -/
abbrev RegFile := Vector Word 32

/-- The ArchitecturalState, `{pc, regs[0..31], hi, lo}` (R27). -/
structure ArchState where
  pc   : Word
  regs : RegFile
  hi   : Word
  lo   : Word
  deriving DecidableEq, Repr

/-- stop_reason (R25); the codes 5 to 7 are never written, so a type of five values holds it (I15). -/
inductive StopReason where
  | none
  | halt
  | illegalInstruction
  | divideByZero
  | externalStop
  deriving DecidableEq, Repr

/-- The stop record (R25). -/
structure StopRecord where
  reason : StopReason
  pc     : Word
  word   : Word
  deriving DecidableEq, Repr

/-- The two states of the Cycle Engine (R33). -/
inductive EngineState where
  | running
  | stopped
  deriving DecidableEq, Repr

/-- The bytes of all regions, as (address, byte) pairs. An address that is not listed reads as `Memory.fill`. -/
abbrev Memory := List Host.Cell

/-- What an unlisted address reads as: 0, for a byte of a region because reset zero-fills it (R39, R61), and for an
unmapped address because a read there returns 0 (R52). -/
def Memory.fill : Byte := 0

/-- The canonical form: addresses strictly rising, no byte equal to what an unlisted address reads as. -/
abbrev Memory.wf (m : Memory) : Prop :=
  m.Pairwise (fun c d => c.1 < d.1) ∧ ∀ c ∈ m, c.2 ≠ Memory.fill

/-- The machine. -/
structure State where
  /-- REGIONS, TEXT_BASE and the program image (R39, R45, R155); no step writes it. -/
  config  : Config
  /-- CURRENT: "committed, readable" (R27). -/
  cur     : ArchState
  /-- NEXT: "being written during the in-progress cycle" (R27). -/
  next    : ArchState
  /-- RunFlag (R24). -/
  runFlag : Bool
  /-- The stop record (R25). -/
  stop    : StopRecord
  /-- The InstructionCounter, an unbounded natural number (R26). -/
  count   : Nat
  /-- The address space's bytes (R41 to R44), not double-buffered (R32). -/
  mem     : Memory
  /-- The raw word of the step in progress, which the Executor receives (R8). DESIGN CHOICE (log 4): a field of the
  model's own, 0 between steps. -/
  word    : Word
  deriving DecidableEq, Repr

/-- The ArchitecturalState after reset: registers, HI and LO 0, pc at TEXT_BASE (R39, R153). -/
def ArchState.reset (textBase : Word) : ArchState :=
  { pc := textBase, regs := Vector.replicate 32 0#32, hi := 0#32, lo := 0#32 }

/-- The stop record after reset: all fields 0 (R25, R39). -/
def StopRecord.reset : StopRecord := { reason := .none, pc := 0#32, word := 0#32 }

/-- The machine right after reset (R39, R153), with the configuration `Config.default` (PRESUMED and DESIGN CHOICE, log 1
to 3), whose image is empty, so that no byte is listed. -/
def State.reset : State where
  config  := Config.default
  cur     := ArchState.reset Config.default.textBase
  next    := ArchState.reset Config.default.textBase
  runFlag := true
  stop    := StopRecord.reset
  count   := 0
  mem     := []
  word    := 0#32

end Sys2Proof.Machine
end

