-- ==== Sys2Proof/Machine/Ops.lean ====
section
/-! DEFINITION. The named operations over registers, memory, the stop record and the step's two ends, each the only place
where its effect is written: register files (R17, R18), HI and LO (R21), NEXT.pc (R29), regions and memory (20_memory.md
R43 to R54), stops (60_exceptions.md R135 to R140), the way out of a stop (R141, R153), and the begin and commit of a
step (R29, R30, R35). Reads come from CURRENT, writes go to NEXT (R14). -/

namespace Sys2Proof.Machine

/-! ### Registers -/

/-- The storage of register `r`. -/
def RegFile.get (f : RegFile) (r : RegNum) : Word := f[r.toNat]'r.isLt

/-- The file with `v` stored in register `r`. -/
def RegFile.set (f : RegFile) (r : RegNum) (v : Word) : RegFile := Vector.set f r.toNat v r.isLt

/-- The read of a register: in the HARDWIRE_R0 variant register 0 "always reads 0" (R18). -/
def RegFile.read (hardwired : Bool) (f : RegFile) (r : RegNum) : Word :=
  if hardwired && r == 0#5 then 0#32 else f.get r

/-- The write of a register: in the HARDWIRE_R0 variant "every `x[0] <- v` is dropped" (R18). -/
def RegFile.write (hardwired : Bool) (f : RegFile) (r : RegNum) (v : Word) : RegFile :=
  if hardwired && r == 0#5 then f else f.set r v

/-- `x[r]`: the read of CURRENT.regs[r] (R14). -/
def State.x (s : State) (r : RegNum) : Word := RegFile.read hardwireR0 s.cur.regs r

/-- `x[r] <- v`: the write of NEXT.regs[r] (R14). -/
def State.setX (s : State) (r : RegNum) (v : Word) : State :=
  { s with next := { s.next with regs := RegFile.write hardwireR0 s.next.regs r v } }

/-- `pc <- v`: the write of NEXT.pc (R14). -/
def State.setPc (s : State) (v : Word) : State := { s with next := { s.next with pc := v } }

/-- `HI <- v`: the write of NEXT.hi (R14). -/
def State.setHi (s : State) (v : Word) : State := { s with next := { s.next with hi := v } }

/-- `LO <- v`: the write of NEXT.lo (R14). -/
def State.setLo (s : State) (v : Word) : State := { s with next := { s.next with lo := v } }

/-- `(CURRENT.pc + 4) mod 2^32`: the next instruction's address, and the link of jal and jalr (R20, R128). -/
def State.pcPlus4 (s : State) : Word := s.cur.pc + 4#32

/-! ### The bytes of memory -/

/-- The byte stored at an address. -/
def Memory.get : Memory → Nat → Byte
  | [], _ => Memory.fill
  | (k, b) :: rest, a => if k = a then b else Memory.get rest a

/-- The memory with byte `v` stored at address `a`, in canonical form. -/
def Memory.set : Memory → Nat → Byte → Memory
  | [], a, v => if v = Memory.fill then [] else [(a, v)]
  | (k, b) :: rest, a, v =>
    if a < k then (if v = Memory.fill then (k, b) :: rest else (a, v) :: (k, b) :: rest)
    else if a = k then (if v = Memory.fill then rest else (a, v) :: rest)
    else (k, b) :: Memory.set rest a v

/-! ### Regions, MemRead and MemWrite -/

/-- "an address belongs to a region iff `base ≤ a ≤ limit`" (R43). -/
def Region.holds (r : Region) (a : Word) : Bool := r.base ≤ a && a ≤ r.limit

/-- `Region(a)`, "by inclusive-bound scan" (R48). DESIGN CHOICE (log 8): where regions overlap, which R43 excludes, the
first in list order. -/
def regionOf (rs : List Region) (a : Word) : Option Region := rs.find? (Region.holds · a)

/-- `n` bytes from address `a` upward as a little-endian number; a byte past `limit` is 0 (R50, R54). -/
def gather (m : Memory) (limit : Nat) : Nat → Nat → Word
  | _, 0 => 0#32
  | a, n + 1 => (if a ≤ limit then (m.get a).setWidth 32 else 0#32) ||| (gather m limit (a + 1) n <<< 8)

/-- The low `n` bytes of `v` stored from address `a` upward, least significant first; a byte past `limit` is dropped
(R51, R54). -/
def scatter (limit : Nat) : Memory → Nat → Nat → Word → Memory
  | m, _, 0, _ => m
  | m, a, n + 1, v => scatter limit (if a ≤ limit then m.set a (v.setWidth 8) else m) (a + 1) n (v >>> 8)

/-- `MemRead(a, n)` (R50): the region is chosen by the first address, and an unmapped address reads 0 (R52). No alignment
check (R57). -/
def memRead (rs : List Region) (m : Memory) (a : Word) (n : Nat) : Word :=
  match regionOf rs a with
  | none => 0#32
  | some r => gather m r.limit.toNat a.toNat n

/-- `MemWrite(a, n, v)` (R51): a write to an unmapped address is dropped (R53). No alignment check (R57). -/
def memWrite (rs : List Region) (m : Memory) (a : Word) (n : Nat) (v : Word) : Memory :=
  match regionOf rs a with
  | none => m
  | some r => scatter r.limit.toNat m a.toNat n v

/-- `MemRead(a, n)` of the machine's address space. -/
def State.load (s : State) (a : Word) (n : Nat) : Word := memRead s.config.regions s.mem a n

/-- `MemWrite(a, n, v)` of the machine's address space, at once, for memory is not double-buffered (R15, R32, R64). -/
def State.store (s : State) (a : Word) (n : Nat) (v : Word) : State :=
  { s with mem := memWrite s.config.regions s.mem a n v }

/-- One byte as the machine reads it: `MemRead(a, 1)`. -/
def State.readByte (s : State) (a : Word) : Byte := (s.load a 1).setWidth 8

/-- The instruction fetch: `MemRead(CURRENT.pc, 4)`, which never fails (R35, R52). -/
def State.fetch (s : State) : Word := s.load s.cur.pc 4

/-! ### Stops: entering one, and the way out -/

/-- The numeric code of a stop reason (R25, R135). -/
def StopReason.code : StopReason → BitVec 3
  | .none => 0
  | .halt => 1
  | .illegalInstruction => 2
  | .divideByZero => 3
  | .externalStop => 4

/-- RUNNING is exactly RunFlag = true (R33). -/
def State.engine (s : State) : EngineState := if s.runFlag then .running else .stopped

/-- Entering a stop from an instruction: `RunFlag <- false; stop_reason <- reason; stop_pc <- CURRENT.pc; stop_word <-
word` (R132, R137). Nothing else is saved, and control goes to no vector (R140). -/
def State.enterStop (s : State) (reason : StopReason) : State :=
  { s with runFlag := false, stop := { reason := reason, pc := s.cur.pc, word := s.word } }

/-- The two conditions an instruction can raise (R16). -/
inductive Condition where
  | illegalInstruction
  | divideByZero
  deriving DecidableEq, Repr

/-- The stop reason a condition records (R135). -/
def Condition.reason : Condition → StopReason
  | .illegalInstruction => .illegalInstruction
  | .divideByZero => .divideByZero

/-- A condition's effect on NEXT: `NEXT.pc <- CURRENT.pc` (R138), or `HI <- 0; LO <- 0` (R139). -/
def Condition.effect : Condition → State → State
  | .illegalInstruction, s => s.setPc s.cur.pc
  | .divideByZero, s => (s.setHi 0#32).setLo 0#32

/-- `raise C(pc, word)` (R16, R137). -/
def State.raise (s : State) (c : Condition) : State := (c.effect s).enterStop c.reason

/-- The loader: word i of the image is written with `MemWrite(a + 4i, 4, word_i)` (R153, R158). DESIGN CHOICE (log 17): a
word's address past 0xFFFFFFFF wraps modulo 2^32, where the spec does not say whether it wraps or the word is dropped. -/
def loadWords (rs : List Region) : Memory → Word → List Word → Memory
  | m, _, [] => m
  | m, a, w :: ws => loadWords rs (memWrite rs m a 4 w) (a + 4#32) ws

/-- The state reset produces for a configuration (R39, R153): memory zero-filled and the image reloaded, registers, HI and
LO 0 and pc TEXT_BASE in CURRENT and NEXT, counter and stop record 0, RUNNING. There is no return from a stop; this is
the only way out of STOPPED (R34, R141). -/
def State.resetFrom (c : Config) : State where
  config  := c
  cur     := ArchState.reset c.textBase
  next    := ArchState.reset c.textBase
  runFlag := true
  stop    := StopRecord.reset
  count   := 0
  mem     := loadWords c.regions [] c.textBase c.image
  word    := 0#32

/-! ### The two ends of a step -/

/-- The state the Executor starts from, for an instruction word at CURRENT.pc: the word is at hand (R8) and `NEXT.pc <-
(CURRENT.pc + 4) mod 2^32` (R29, R35). NEXT's other fields stand, for NEXT equals CURRENT
here (R28; DESIGN CHOICE, log 12). -/
def State.beginWith (s : State) (w : Word) : State := { s.setPc s.pcPlus4 with word := w }

/-- `word <- MemRead(CURRENT.pc, 4)` and the preset of NEXT.pc (R35). -/
def State.begin (s : State) : State := s.beginWith s.fetch

/-- `CURRENT <- NEXT; InstructionCounter <- InstructionCounter + 1` (R30, R35); the word at hand is let go (log 4). -/
def State.commit (s : State) : State := { s with cur := s.next, count := s.count + 1, word := 0#32 }

/-- The commit after the Executor. -/
def commitOutcome : Host.Outcome State Fault Refusal → Host.Outcome State Fault Refusal
  | .next s => .next s.commit
  | .fault r => .fault r
  | .refused r => .refused r

end Sys2Proof.Machine
end

