-- ==== Sys2Proof/Machine/Operands.lean ====
section
/-! DEFINITION. The operand values of 30_encoding.md R72, the effective addresses of 43_load_store.md R115 and the
targets of 44_control.md R122 and R127, and the two ways an instruction ends in a register write. -/

namespace Sys2Proof.Machine

/-- `sext_32(imm16)` (R13, R72). -/
def sext (imm : Imm16) : Word := imm.signExtend 32

/-- `zext_32(imm16)` (R13, R72). -/
def zext (imm : Imm16) : Word := imm.setWidth 32

/-- lui's operand: `imm16 ++ 0x0000` (R72, R114). -/
def upper (imm : Imm16) : Word := imm ++ 0#16

/-- `sext_32` of a byte (R117). -/
def sextByte (b : Byte) : Word := b.signExtend 32

/-- `sext_32` of a halfword (R118). -/
def sextHalf (h : BitVec 16) : Word := h.signExtend 32

/-- The address of lw: `(x[rs] + zext_32(imm16)) mod 2^32` (R115, R116). -/
def State.eaZero (s : State) (rs : RegNum) (imm : Imm16) : Word := s.x rs + zext imm

/-- The address of lb, lh, sb, sh and sw: `(x[rs] + sext_32(imm16)) mod 2^32` (R115). -/
def State.eaSigned (s : State) (rs : RegNum) (imm : Imm16) : Word := s.x rs + sext imm

/-- A taken branch's target, relative to the branch's own address: `(CURRENT.pc + (sext_32(imm16) << 2)) mod 2^32`
(R122). -/
def State.branchTarget (s : State) (imm : Imm16) : Word := s.cur.pc + (sext imm <<< 2)

/-- `CURRENT.pc[31:28] ++ target26 ++ 0b00` (R127). -/
def State.jumpTarget (s : State) (target : Target26) : Word := s.cur.pc.extractLsb' 28 4 ++ target ++ 0#2

/-- An instruction whose whole effect is `x[rd] <- v`. -/
def writeX (rd : RegNum) (v : Word) (s : State) : Host.Outcome State Fault Refusal := .next (s.setX rd v)

/-- An instruction whose whole effect is `HI <- hi; LO <- lo`. -/
def writeHiLo (hi lo : Word) (s : State) : Host.Outcome State Fault Refusal := .next ((s.setHi hi).setLo lo)

/-- A conditional branch: `if taken then pc <- target`, otherwise the preset stands (R122). -/
def branchIf (taken : Bool) (imm : Imm16) (s : State) : Host.Outcome State Fault Refusal :=
  .next (if taken then s.setPc (s.branchTarget imm) else s)

end Sys2Proof.Machine
end

