-- ==== Sys2Proof/Machine/Alu.lean ====
section
/-! DEFINITION. Register-format arithmetic, logical and shift instructions (40_alu_register.md R86 to R97). None reads or
writes HI, LO or memory; NEXT.pc keeps its preset. -/

namespace Sys2Proof.Machine

/-- `add rd, rs, rt` (R86): the sum modulo 2^32, "no overflow trap". -/
def execAdd (rd rs rt : RegNum) (s : State) : Host.Outcome State Fault Refusal := writeX rd (s.x rs + s.x rt) s

/-- `addu rd, rs, rt` (R87): identical to add. -/
def execAddu (rd rs rt : RegNum) (s : State) : Host.Outcome State Fault Refusal := writeX rd (s.x rs + s.x rt) s

/-- `sub rd, rs, rt` (R88): the difference modulo 2^32, no overflow trap. -/
def execSub (rd rs rt : RegNum) (s : State) : Host.Outcome State Fault Refusal := writeX rd (s.x rs - s.x rt) s

/-- `subu rd, rs, rt` (R89): identical to sub. -/
def execSubu (rd rs rt : RegNum) (s : State) : Host.Outcome State Fault Refusal := writeX rd (s.x rs - s.x rt) s

/-- `and rd, rs, rt` (R90). -/
def execAnd (rd rs rt : RegNum) (s : State) : Host.Outcome State Fault Refusal := writeX rd (s.x rs &&& s.x rt) s

/-- `or rd, rs, rt` (R91). -/
def execOr (rd rs rt : RegNum) (s : State) : Host.Outcome State Fault Refusal := writeX rd (s.x rs ||| s.x rt) s

/-- `xor rd, rs, rt` (R92). -/
def execXor (rd rs rt : RegNum) (s : State) : Host.Outcome State Fault Refusal := writeX rd (s.x rs ^^^ s.x rt) s

/-- `nor rd, rs, rt` (R93). -/
def execNor (rd rs rt : RegNum) (s : State) : Host.Outcome State Fault Refusal := writeX rd (~~~(s.x rs ||| s.x rt)) s

/-- `slt rd, rs, rt` (R94): 1 or 0 by signed comparison. -/
def execSlt (rd rs rt : RegNum) (s : State) : Host.Outcome State Fault Refusal := writeX rd (setOnLess (s.x rs) (s.x rt)) s

/-- `sll rd, rt, shamt` (R95): zeros enter at the right. -/
def execSll (rd rt : RegNum) (shamt : Shamt) (s : State) : Host.Outcome State Fault Refusal :=
  writeX rd (s.x rt <<< shamt.toNat) s

/-- `srl rd, rt, shamt` (R96): zeros enter at the left, no rotate. -/
def execSrl (rd rt : RegNum) (shamt : Shamt) (s : State) : Host.Outcome State Fault Refusal :=
  writeX rd (s.x rt >>> shamt.toNat) s

/-- `sra rd, rt, shamt` (R97): copies of the sign bit enter at the left. -/
def execSra (rd rt : RegNum) (shamt : Shamt) (s : State) : Host.Outcome State Fault Refusal :=
  writeX rd ((s.x rt).sshiftRight shamt.toNat) s

end Sys2Proof.Machine
end

