-- ==== Sys2Proof/Machine/Control.lean ====
section
/-! DEFINITION. Branches and jumps (44_control.md R122 to R131): no delay slot, no check of a target. -/

namespace Sys2Proof.Machine

/-- `beq rs, rt, label` (R123). -/
def execBeq (rs rt : RegNum) (imm : Imm16) (s : State) : Host.Outcome State Fault Refusal :=
  branchIf (s.x rs == s.x rt) imm s

/-- `bne rs, rt, label` (R124). -/
def execBne (rs rt : RegNum) (imm : Imm16) (s : State) : Host.Outcome State Fault Refusal :=
  branchIf (s.x rs != s.x rt) imm s

/-- `blez rs, label` (R125). -/
def execBlez (rs : RegNum) (imm : Imm16) (s : State) : Host.Outcome State Fault Refusal :=
  branchIf (atMostZero (s.x rs)) imm s

/-- `bgtz rs, label` (R126). -/
def execBgtz (rs : RegNum) (imm : Imm16) (s : State) : Host.Outcome State Fault Refusal :=
  branchIf (aboveZero (s.x rs)) imm s

/-- `j label` (R127): the high 4 bits are the jump's own. -/
def execJ (target : Target26) (s : State) : Host.Outcome State Fault Refusal := .next (s.setPc (s.jumpTarget target))

/-- `jal label` (R128): `x[31] <- pc + 4`, then the jump. -/
def execJal (target : Target26) (s : State) : Host.Outcome State Fault Refusal :=
  .next ((s.setX 31#5 s.pcPlus4).setPc (s.jumpTarget target))

/-- `jr rs` (R129). -/
def execJr (rs : RegNum) (s : State) : Host.Outcome State Fault Refusal := .next (s.setPc (s.x rs))

/-- `jalr rd, rs` (R130): the target is CURRENT's x[rs], also when rd = rs. -/
def execJalr (rd rs : RegNum) (s : State) : Host.Outcome State Fault Refusal :=
  .next ((s.setX rd s.pcPlus4).setPc (s.x rs))

end Sys2Proof.Machine
end

