-- ==== Sys2Proof/Machine/Immediate.lean ====
section
/-! DEFINITION. Immediate arithmetic, logical and load-immediate instructions (42_immediate.md R108 to R114). The
destination is rt, the source register rs; NEXT.pc keeps its preset. -/

namespace Sys2Proof.Machine

/-- `addi rt, rs, imm` (R108): the immediate is sign-extended; no overflow trap (D36). -/
def execAddi (rt rs : RegNum) (imm : Imm16) (s : State) : Host.Outcome State Fault Refusal :=
  writeX rt (s.x rs + sext imm) s

/-- `addiu rt, rs, imm` (R109): the immediate is ZERO-extended, unlike MIPS (C9). -/
def execAddiu (rt rs : RegNum) (imm : Imm16) (s : State) : Host.Outcome State Fault Refusal :=
  writeX rt (s.x rs + zext imm) s

/-- `slti rt, rs, imm` (R110): signed comparison with the sign-extended immediate (D18). -/
def execSlti (rt rs : RegNum) (imm : Imm16) (s : State) : Host.Outcome State Fault Refusal :=
  writeX rt (setOnLess (s.x rs) (sext imm)) s

/-- `andi rt, rs, imm` (R111), with the second mask the source asks for. -/
def execAndi (rt rs : RegNum) (imm : Imm16) (s : State) : Host.Outcome State Fault Refusal :=
  writeX rt ((s.x rs &&& zext imm) &&& 0x0000FFFF#32) s

/-- `ori rt, rs, imm` (R112). -/
def execOri (rt rs : RegNum) (imm : Imm16) (s : State) : Host.Outcome State Fault Refusal :=
  writeX rt (s.x rs ||| zext imm) s

/-- `xori rt, rs, imm` (R113). -/
def execXori (rt rs : RegNum) (imm : Imm16) (s : State) : Host.Outcome State Fault Refusal :=
  writeX rt (s.x rs ^^^ zext imm) s

/-- `lui rt, imm` (R114). -/
def execLui (rt : RegNum) (imm : Imm16) (s : State) : Host.Outcome State Fault Refusal := writeX rt (upper imm) s

end Sys2Proof.Machine
end

