-- ==== Sys2Proof/Machine/LoadStore.lean ====
section
/-! DEFINITION. Loads and stores (43_load_store.md R115 to R121): one addressing mode, no base update, no alignment check
and no fault. NEXT.pc keeps its preset. -/

namespace Sys2Proof.Machine

/-- `lw rt, offset(rs)` (R116): the offset is ZERO-extended (C5). -/
def execLw (rt rs : RegNum) (imm : Imm16) (s : State) : Host.Outcome State Fault Refusal :=
  writeX rt (s.load (s.eaZero rs imm) 4) s

/-- `lb rt, offset(rs)` (R117): one byte, sign-extended. -/
def execLb (rt rs : RegNum) (imm : Imm16) (s : State) : Host.Outcome State Fault Refusal :=
  writeX rt (sextByte ((s.load (s.eaSigned rs imm) 1).extractLsb' 0 8)) s

/-- `lh rt, offset(rs)` (R118): two bytes, sign-extended. -/
def execLh (rt rs : RegNum) (imm : Imm16) (s : State) : Host.Outcome State Fault Refusal :=
  writeX rt (sextHalf ((s.load (s.eaSigned rs imm) 2).extractLsb' 0 16)) s

/-- `sb rt, offset(rs)` (R119): the low byte of x[rt]. -/
def execSb (rt rs : RegNum) (imm : Imm16) (s : State) : Host.Outcome State Fault Refusal :=
  .next (s.store (s.eaSigned rs imm) 1 (s.x rt))

/-- `sh rt, offset(rs)` (R120): the low halfword of x[rt]. -/
def execSh (rt rs : RegNum) (imm : Imm16) (s : State) : Host.Outcome State Fault Refusal :=
  .next (s.store (s.eaSigned rs imm) 2 (s.x rt))

/-- `sw rt, offset(rs)` (R121): the offset is sign-extended here (C5). -/
def execSw (rt rs : RegNum) (imm : Imm16) (s : State) : Host.Outcome State Fault Refusal :=
  .next (s.store (s.eaSigned rs imm) 4 (s.x rt))

end Sys2Proof.Machine
end

