-- ==== Sys2Proof/Machine/MulDiv.lean ====
section
/-! DEFINITION. Multiply, divide and HI/LO transfer (41_muldiv_hilo.md R98 to R107). NEXT.pc keeps its preset in every
one. -/

namespace Sys2Proof.Machine

/-- The upper 32 bits of a product: `p[63:32]` (R98). -/
def highWord (p : DoubleWord) : Word := p.extractLsb' 32 32

/-- The lower 32 bits of a product: `p[31:0]` (R98). -/
def lowWord (p : DoubleWord) : Word := p.extractLsb' 0 32

/-- `(signed(a) * signed(b)) mod 2^64` (R98, D10). -/
def signedProduct (a b : Word) : DoubleWord := BitVec.ofInt 64 (a.toInt * b.toInt)

/-- `unsigned(a) * unsigned(b)`, which is below 2^64 (R99). -/
def unsignedProduct (a b : Word) : DoubleWord := BitVec.ofNat 64 (a.toNat * b.toNat)

/-- `trunc(a / b) mod 2^32` of the signed values (R13, R100, D11, D12). -/
def signedQuotient (a b : Word) : Word := BitVec.ofInt 32 (a.toInt.tdiv b.toInt)

/-- `(a - q * b) mod 2^32` with q the truncated quotient, before it is reduced (R100). -/
def signedRemainder (a b : Word) : Word := BitVec.ofInt 32 (a.toInt - a.toInt.tdiv b.toInt * b.toInt)

/-- `floor(a / b)` of the unsigned values (R101). -/
def unsignedQuotient (a b : Word) : Word := BitVec.ofNat 32 (a.toNat / b.toNat)

/-- `a mod b` of the unsigned values (R101). -/
def unsignedRemainder (a b : Word) : Word := BitVec.ofNat 32 (a.toNat % b.toNat)

/-- `mult rs, rt` (R98): signed, exact to 64 bits. -/
def execMult (rs rt : RegNum) (s : State) : Host.Outcome State Fault Refusal :=
  writeHiLo (highWord (signedProduct (s.x rs) (s.x rt))) (lowWord (signedProduct (s.x rs) (s.x rt))) s

/-- `multu rs, rt` (R99): unsigned, exact to 64 bits. -/
def execMultu (rs rt : RegNum) (s : State) : Host.Outcome State Fault Refusal :=
  writeHiLo (highWord (unsignedProduct (s.x rs) (s.x rt))) (lowWord (unsignedProduct (s.x rs) (s.x rt))) s

/-- `div rs, rt` (R100): signed; a zero divisor raises DivideByZero (R139). -/
def execDiv (rs rt : RegNum) (s : State) : Host.Outcome State Fault Refusal :=
  if s.x rt = 0#32 then .next (s.raise .divideByZero)
  else writeHiLo (signedRemainder (s.x rs) (s.x rt)) (signedQuotient (s.x rs) (s.x rt)) s

/-- `divu rs, rt` (R101): unsigned; a zero divisor raises DivideByZero (R139). -/
def execDivu (rs rt : RegNum) (s : State) : Host.Outcome State Fault Refusal :=
  if s.x rt = 0#32 then .next (s.raise .divideByZero)
  else writeHiLo (unsignedRemainder (s.x rs) (s.x rt)) (unsignedQuotient (s.x rs) (s.x rt)) s

/-- `mfhi rd` (R102): HI is read from CURRENT. -/
def execMfhi (rd : RegNum) (s : State) : Host.Outcome State Fault Refusal := writeX rd s.cur.hi s

/-- `mthi rs` (R103). -/
def execMthi (rs : RegNum) (s : State) : Host.Outcome State Fault Refusal := .next (s.setHi (s.x rs))

/-- `mflo rd` (R104): LO is read from CURRENT. -/
def execMflo (rd : RegNum) (s : State) : Host.Outcome State Fault Refusal := writeX rd s.cur.lo s

/-- `mtlo rs` (R105). -/
def execMtlo (rs : RegNum) (s : State) : Host.Outcome State Fault Refusal := .next (s.setLo (s.x rs))

end Sys2Proof.Machine
end

