-- ==== Sys2Proof/Machine/System.lean ====
section
/-! DEFINITION. The system instruction and the illegal instruction (45_system.md R132 to R134). -/

namespace Sys2Proof.Machine

/-- `syscall` (R132): the halt, unconditional; NEXT.pc keeps its preset. -/
def execSyscall (s : State) : Host.Outcome State Fault Refusal := .next (s.enterStop .halt)

/-- An illegal word (R134): `raise IllegalInstruction(pc, word)`. It is no row of the opcode table, so the step calls it
where the decoder rejects. -/
def execIllegal (s : State) : Host.Outcome State Fault Refusal := .next (s.raise .illegalInstruction)

end Sys2Proof.Machine
end

