-- ==== Sys2Proof/Machine/Step.lean ====
section
/-! DEFINITION. One step of the Cycle Engine (10_state.md R35): "fetch word at CURRENT.pc via AddressSpace.read32 →
Decoder → Executor → commit NEXT as new CURRENT → increment InstructionCounter". -/

namespace Sys2Proof.Machine

/-- The Executor on a fetched word: the instruction's meaning, or the illegal instruction (R73, R134). -/
def execWord (w : Word) (s : State) : Host.Outcome State Fault Refusal :=
  match decodeWord w with
  | .ok i => exec i s
  | .error _ => execIllegal s

/-- One step of the core alone (log 15). While STOPPED it does nothing: no fetch, no count, no state change (R35, D16;
DEDUCED, log 11). -/
def step (s : State) : Host.Outcome State Fault Refusal :=
  if s.runFlag then commitOutcome (execWord s.fetch s.begin) else .next s

/-- The state with an instruction placed where the step fetches: the loader's `MemWrite(CURRENT.pc, 4, w)` (R158, R167;
log 6). The bits of `w` above `nbits` are 0. -/
def State.withFetchWord (s : State) (nbits w : Nat) : State := s.store s.cur.pc 4 (BitVec.ofNat 32 (w % 2 ^ nbits))

end Sys2Proof.Machine
end

