-- ==== Sys2Proof/Machine/Debugger.lean ====
section
/-! DEFINITION. The core's side of the host interface (70_reset_and_hazards.md R153 to R168): running, reset and load, the
patches, the dumps and the explicit stop. The host acts between steps only (R38, R160), so each is a function from a state
between steps to a state between steps. -/

namespace Sys2Proof.Machine

/-! ### Running (R36, R37, R161, R162) -/

/-- The state after one step request. `step` answers a next state in every state, so the other two cases never occur. -/
def State.afterStep (s : State) : State :=
  match step s with
  | .next t => t
  | .fault _ => s
  | .refused _ => s

/-- "Run N": up to n steps, stopping early once the engine is STOPPED (R36). -/
def runSteps : Nat → State → State
  | 0, s => s
  | n + 1, s => if s.runFlag then runSteps n s.afterStep else s

/-- "Run to completion": repeat Step while RUNNING (R37). A run that never stops has no final state (R174), so the model
bounds it by fuel (I9, log 9) and answers none where the fuel ends first. -/
def runToCompletion : Nat → State → Option State
  | 0, s => if s.runFlag then none else some s
  | n + 1, s => if s.runFlag then runToCompletion n s.afterStep else some s

/-! ### Reset, load, patches and stop -/

/-- `reset` (R153): the configuration, its program image included, is kept (R154). -/
def State.resetCommand (s : State) : State := State.resetFrom s.config

/-- Loading a program: "the same effect as reset with that program image" (R155). -/
def State.loadProgram (s : State) (image : List Word) : State := State.resetFrom { s.config with image := image }

/-- `input`: the register patch, "in both CURRENT and NEXT" (R163). -/
def State.patchX (s : State) (r : RegNum) (v : Word) : State :=
  { s with
    cur  := { s.cur with regs := RegFile.write hardwireR0 s.cur.regs r v }
    next := { s.next with regs := RegFile.write hardwireR0 s.next.regs r v } }

/-- `high`: the HI patch (R163). -/
def State.patchHi (s : State) (v : Word) : State :=
  { s with cur := { s.cur with hi := v }, next := { s.next with hi := v } }

/-- `low`: the LO patch (R163). -/
def State.patchLo (s : State) (v : Word) : State :=
  { s with cur := { s.cur with lo := v }, next := { s.next with lo := v } }

/-- The memory patch: `MemWrite(a, 4, v)` between steps (R167). -/
def State.patchMem (s : State) (a v : Word) : State := s.store a 4 v

/-- The explicit stop: if RUNNING, clear the RunFlag and record EXTERNAL_STOP with pc and word 0; if STOPPED, nothing (R143,
R166). -/
def State.externalStop (s : State) : State :=
  if s.runFlag then { s with runFlag := false, stop := { reason := .externalStop, pc := 0#32, word := 0#32 } } else s

/-! ### Dumps -/

/-- What `rdump` reads (R164). -/
structure RegisterDump where
  pc      : Word
  count   : Nat
  regs    : RegFile
  hi      : Word
  lo      : Word
  runFlag : Bool
  stop    : StopRecord
  deriving DecidableEq, Repr

/-- `rdump` (R164). -/
def State.registerDump (s : State) : RegisterDump :=
  { pc := s.cur.pc, count := s.count, regs := s.cur.regs, hi := s.cur.hi, lo := s.cur.lo, runFlag := s.runFlag,
    stop := s.stop }

/-- `n` words from address `a`, 4 bytes apart, each with its address. mdump never asks past the top (R165); for `print` of
a program past the top the address wraps, as the loader's does (DESIGN CHOICE, log 17). -/
def State.wordsFrom (s : State) : Word → Nat → List (Word × Word)
  | _, 0 => []
  | a, n + 1 => (a, s.load a 4) :: s.wordsFrom (a + 4#32) n

/-- `mdump start stop`: `MemRead(a, 4)` for a = start, start + 4, … while a ≤ stop; nothing if start > stop, and no wrap
past the top (R165, D34). -/
def State.memoryDump (s : State) (start stop : Word) : List (Word × Word) :=
  if start ≤ stop then s.wordsFrom start ((stop.toNat - start.toNat) / 4 + 1) else []

/-- What `print` reads: the words of the loaded program (R168; DEDUCED, log 16); their text is out of scope (R5). -/
def State.programWords (s : State) : List (Word × Word) := s.wordsFrom s.config.textBase s.config.image.length

/-! ### The command table (R160) -/

/-- A host command. Numbers are as the host types them; `fuel` is the model's bound on `sim` (log 9). -/
inductive ShellCommand where
  | sim (fuel : Nat)
  | run (n : Nat)
  | rdump
  | reset
  | input (reg val : Nat)
  | high (val : Nat)
  | low (val : Nat)
  | mdump (start stop : Nat)
  | print
  | help
  | quit
  | explicitStop
  | memoryPatch (addr val : Nat)
  | load (image : List Word)
  deriving DecidableEq, Repr

/-- What the host sees of a command. -/
inductive ShellReply where
  /-- the command was carried out -/
  | done
  /-- what `rdump` read -/
  | registers (d : RegisterDump)
  /-- what `mdump` or `print` read -/
  | words (l : List (Word × Word))
  /-- malformed arguments: nothing changed (R160, D33) -/
  | rejected
  /-- `sim` did not reach STOPPED within its fuel, so there is no final state to give (R174, I9) -/
  | noFinalState
  /-- `quit`: the process ends and no core state survives it (R168) -/
  | ended
  deriving DecidableEq, Repr

/-- The arguments are in range: a register index in 0 to 31, values and addresses 32-bit (R163, D33; DEDUCED for mdump and
the memory patch, log 14). -/
def ShellCommand.accepted : ShellCommand → Bool
  | .input reg val => decide (reg < 32) && decide (val < 2 ^ 32)
  | .high val => decide (val < 2 ^ 32)
  | .low val => decide (val < 2 ^ 32)
  | .mdump start stop => decide (start < 2 ^ 32) && decide (stop < 2 ^ 32)
  | .memoryPatch addr val => decide (addr < 2 ^ 32) && decide (val < 2 ^ 32)
  | .sim _ | .run _ | .rdump | .reset | .print | .help | .quit | .explicitStop | .load _ => true

/-- An accepted command's effect and reply (R160). -/
def ShellCommand.perform : ShellCommand → State → State × ShellReply
  | .sim fuel, s =>
    match runToCompletion fuel s with
    | some t => (t, .done)
    | none => (s, .noFinalState)
  | .run n, s => (runSteps n s, .done)
  | .rdump, s => (s, .registers s.registerDump)
  | .reset, s => (s.resetCommand, .done)
  | .input reg val, s => (s.patchX (BitVec.ofNat 5 reg) (BitVec.ofNat 32 val), .done)
  | .high val, s => (s.patchHi (BitVec.ofNat 32 val), .done)
  | .low val, s => (s.patchLo (BitVec.ofNat 32 val), .done)
  | .mdump start stop, s => (s, .words (s.memoryDump (BitVec.ofNat 32 start) (BitVec.ofNat 32 stop)))
  | .print, s => (s, .words s.programWords)
  | .help, s => (s, .done)
  | .quit, s => (s, .ended)
  | .explicitStop, s => (s.externalStop, .done)
  | .memoryPatch addr val, s => (s.patchMem (BitVec.ofNat 32 addr) (BitVec.ofNat 32 val), .done)
  | .load image, s => (s.loadProgram image, .done)

/-- A host command: "Malformed shell input …: command is rejected with a message; engine state is unaffected" (R160). -/
def shell (c : ShellCommand) (s : State) : State × ShellReply :=
  if c.accepted then c.perform s else (s, .rejected)

end Sys2Proof.Machine
end

