-- ==== Sys2Proof/WellFormed.lean ====
section
/-! DEFINITION. Well-formedness. An instruction needs no check: its operand types are as wide as its fields, and no
encoding of a listed opcode is reserved (30_encoding.md R71, R78). What the spec does call well-formed or not is the
platform's configuration (20_memory.md R45, 70_reset_and_hazards.md R157). -/

namespace Sys2Proof

/-- "every triple has base <= limit" (R45). -/
def Config.boundsOrdered (c : Config) : Bool := c.regions.all fun r => r.base ≤ r.limit

/-- Two regions share no address. -/
def Region.disjoint (r q : Region) : Bool := r.limit < q.base || q.limit < r.base

/-- "the regions are pairwise disjoint" (R43, R45). -/
def Config.regionsDisjoint (c : Config) : Bool := decide (c.regions.Pairwise fun r q => r.disjoint q = true)

/-- "one region, the text region, contains TEXT_BASE" (R45). -/
def Config.textBaseMapped (c : Config) : Bool := c.regions.any fun r => r.base ≤ c.textBase && c.textBase ≤ r.limit

/-- A well-formed REGIONS value and TEXT_BASE (R45). -/
def Config.wf (c : Config) : Bool := c.boundsOrdered && c.regionsDisjoint && c.textBaseMapped

/-- "The program must fit in the text region" (R157): its last byte lies at or below the limit of the region that holds
TEXT_BASE. -/
def Config.programFits (c : Config) : Bool :=
  c.regions.any fun r =>
    r.base ≤ c.textBase && c.textBase ≤ r.limit && c.textBase.toNat + 4 * c.image.length ≤ r.limit.toNat + 1

end Sys2Proof
end

