-- ==== Sys2Proof/Safety.lean ====
section
/-! DEFINITION. What claims are about: the invariant of the states between steps, the ends of a run
(70_reset_and_hazards.md R174), and what the host may do during one (R175). -/

namespace Sys2Proof.Machine

/-- Every listed byte lies in a region: only the bytes inside a region hold storage (R41, R43). -/
abbrev Memory.mapped (rs : List Region) (m : Memory) : Prop :=
  ∀ c ∈ m, ∃ r ∈ rs, r.base.toNat ≤ c.1 ∧ c.1 ≤ r.limit.toNat

/-- The RunFlag and the stop record agree: NONE exactly while RUNNING, and pc and word are 0 when the reason is NONE or
EXTERNAL_STOP (R24, R25, R34). -/
abbrev State.stopAgrees (s : State) : Prop :=
  (s.runFlag = true ↔ s.stop.reason = .none) ∧
  (s.stop.reason = .none ∨ s.stop.reason = .externalStop → s.stop.pc = 0#32 ∧ s.stop.word = 0#32)

/-- The invariant of a state between steps: the configuration is well-formed (R45), memory is in canonical form and within
the regions, NEXT equals CURRENT (R28), no word is in progress, and RunFlag and stop record agree. -/
abbrev State.Inv (s : State) : Prop :=
  s.config.wf = true ∧ Memory.wf s.mem ∧ Memory.mapped s.config.regions s.mem ∧ s.next = s.cur ∧ s.word = 0#32 ∧
    s.stopAgrees

/-- "A claim that a program halts normally means stop_reason = HALT" (R174). -/
abbrev State.haltedNormally (s : State) : Prop := s.runFlag = false ∧ s.stop.reason = .halt

/-- "A run that ends with stop_reason = ILLEGAL_INSTRUCTION or DIVIDE_BY_ZERO has ended in error" (R174). -/
abbrev State.endedInError (s : State) : Prop :=
  s.runFlag = false ∧ (s.stop.reason = .illegalInstruction ∨ s.stop.reason = .divideByZero)

/-- `t` is the end of a run from `s` in which the host only runs or sims (R174, R175): some number of steps reaches it, and
it is STOPPED. -/
def EndsIn (s t : State) : Prop := ∃ fuel, runToCompletion fuel s = some t

/-- A safe run: it never ends in error, however long it is run. -/
def SafeRun (s : State) : Prop := ∀ n, ¬ (runSteps n s).endedInError

end Sys2Proof.Machine
end

