-- ==== Sys2Proof/Certificates/Slice0/Obligations.lean ====
section
/-! DEFINITION. The statements for the provers, and the vocabulary they share. Each statement's docstring names the rule it
formalises; where the spec marks a rule as its own decision, derivation or general knowledge, the docstring says so. -/

namespace Sys2Proof.Claims

open Sys2Proof.Machine

/-! ### The fields of a word (30_encoding.md R68) -/

def op (w : Word) : BitVec 6 := w.extractLsb' 26 6
def fn (w : Word) : BitVec 6 := w.extractLsb' 0 6
def rs (w : Word) : RegNum := w.extractLsb' 21 5
def rt (w : Word) : RegNum := w.extractLsb' 16 5
def rd (w : Word) : RegNum := w.extractLsb' 11 5
def sh (w : Word) : Shamt := w.extractLsb' 6 5
def imm (w : Word) : Imm16 := w.extractLsb' 0 16
def tgt (w : Word) : Target26 := w.extractLsb' 0 26

/-- Every word with opcode 0 and this funct is the instruction, whatever its unused fields hold. -/
def RegisterWord (funct : BitVec 6) (i : Word → Instr) : Prop :=
  ∀ w : Word, op w = 0#6 → fn w = funct → decodeWord w = .ok (i w)

/-- Every word with this opcode is the instruction, whatever its unused fields hold. -/
def PrimaryWord (opcode : BitVec 6) (i : Word → Instr) : Prop :=
  ∀ w : Word, op w = opcode → decodeWord w = .ok (i w)

/-! ### Registers and frames -/

/-- `x[r]`, read from CURRENT (R14). -/
def x (s : State) (r : RegNum) : Word := RegFile.get s.cur.regs r

/-- Register r of NEXT, where writes go (R14). -/
def y (t : State) (r : RegNum) : Word := RegFile.get t.next.regs r

/-- CURRENT, the configuration, the counter and the word in progress are as before. -/
def SameBase (s t : State) : Prop :=
  t.cur = s.cur ∧ t.config = s.config ∧ t.count = s.count ∧ t.word = s.word

/-- The RunFlag and the stop record are as before. -/
def SameRun (s t : State) : Prop := t.runFlag = s.runFlag ∧ t.stop = s.stop

/-- Every byte of memory reads as before. -/
def SameMemory (s t : State) : Prop := ∀ a : Word, t.readByte a = s.readByte a

/-- Every register of NEXT is as before. -/
def SameRegs (s t : State) : Prop := ∀ r, y t r = y s r

/-- Every register of NEXT but one is as before. -/
def SameRegsBut (s t : State) (d : RegNum) : Prop := ∀ r, r ≠ d → y t r = y s r

/-- HI and LO of NEXT are as before. -/
def SameHiLo (s t : State) : Prop := t.next.hi = s.next.hi ∧ t.next.lo = s.next.lo

/-- NEXT.pc keeps its value: the preset CURRENT.pc + 4, in a step (R29). -/
def SamePc (s t : State) : Prop := t.next.pc = s.next.pc

/-- The frame of an instruction that writes one register and nothing else. -/
def OnlyRegister (s t : State) (d : RegNum) : Prop :=
  SameBase s t ∧ SameRun s t ∧ SameMemory s t ∧ SameHiLo s t ∧ SamePc s t ∧ SameRegsBut s t d

/-- The frame of an instruction that writes HI and LO and nothing else. -/
def OnlyHiLo (s t : State) : Prop :=
  SameBase s t ∧ SameRun s t ∧ SameMemory s t ∧ SamePc s t ∧ SameRegs s t

/-- The frame of an instruction that writes NEXT.pc and nothing else. -/
def OnlyPc (s t : State) : Prop :=
  SameBase s t ∧ SameRun s t ∧ SameMemory s t ∧ SameHiLo s t ∧ SameRegs s t

/-- The frame of an instruction that writes one register and NEXT.pc and nothing else. -/
def OnlyRegisterAndPc (s t : State) (d : RegNum) : Prop :=
  SameBase s t ∧ SameRun s t ∧ SameMemory s t ∧ SameHiLo s t ∧ SameRegsBut s t d

/-- The frame of an instruction that writes memory and nothing else. -/
def OnlyMemory (s t : State) : Prop :=
  SameBase s t ∧ SameRun s t ∧ SameHiLo s t ∧ SamePc s t ∧ SameRegs s t

/-! ### Stored bytes (20_memory.md R51, R53, R54) -/

/-- Address `a` is one of the bytes an n-byte write at `ea` stores to: `ea` is mapped, and `a` is among the n bytes from
`ea` and not past the limit of ea's region. -/
def Stored (s : State) (ea : Word) (n : Nat) (a : Word) : Prop :=
  ∃ r, regionOf s.config.regions ea = some r ∧ ea.toNat ≤ a.toNat ∧ a.toNat < ea.toNat + n ∧ a.toNat ≤ r.limit.toNat

/-- From `s` to `t` the low n bytes of `v` are stored at `ea`, least significant first, and no other byte changes. -/
def StoresBytes (s t : State) (ea : Word) (n : Nat) (v : Word) : Prop :=
  ∀ a : Word,
    (Stored s ea n a → t.readByte a = v.extractLsb' (8 * (a.toNat - ea.toNat)) 8) ∧
    (¬ Stored s ea n a → t.readByte a = s.readByte a)

/-! ### Which instructions do what -/

/-- The bits of an instruction's word that its rule uses: the opcode, the funct when the opcode is 0, and the fields its
row of the opcode table lists (30_encoding.md R70, R71). -/
def usedMask : Instr → Word
  | .sll .. | .srl .. | .sra .. => 0xFC1FFFFF#32
  | .jr .. | .mthi .. | .mtlo .. => 0xFFE0003F#32
  | .jalr .. => 0xFFE0F83F#32
  | .syscall => 0xFC00003F#32
  | .mfhi .. | .mflo .. => 0xFC00F83F#32
  | .mult .. | .multu .. | .div .. | .divu .. => 0xFFFF003F#32
  | .add .. | .addu .. | .sub .. | .subu .. | .and .. | .or .. | .xor .. | .nor .. | .slt .. => 0xFFFFF83F#32
  | .j .. | .jal .. => 0xFFFFFFFF#32
  | .beq .. | .bne .. => 0xFFFFFFFF#32
  | .blez .. | .bgtz .. => 0xFFE0FFFF#32
  | .addi .. | .addiu .. | .slti .. | .andi .. | .ori .. | .xori .. => 0xFFFFFFFF#32
  | .lui .. => 0xFC1FFFFF#32
  | .lb .. | .lh .. | .lw .. | .sb .. | .sh .. | .sw .. => 0xFFFFFFFF#32

/-- The primary opcodes without a row (R76). -/
def illegalOpcodes : List (BitVec 6) :=
  [0x01, 0x0B, 0x10, 0x11, 0x12, 0x13, 0x14, 0x15, 0x16, 0x17, 0x18, 0x19, 0x1A, 0x1B, 0x1C, 0x1D, 0x1E, 0x1F, 0x22,
   0x24, 0x25, 0x26, 0x27, 0x2A, 0x2C, 0x2D, 0x2E, 0x2F] ++
  [0x30, 0x31, 0x32, 0x33, 0x34, 0x35, 0x36, 0x37, 0x38, 0x39, 0x3A, 0x3B, 0x3C, 0x3D, 0x3E, 0x3F]

/-- The functs without a row (R77). -/
def illegalFuncts : List (BitVec 6) :=
  [0x01, 0x04, 0x05, 0x06, 0x07, 0x0A, 0x0B, 0x0D, 0x0E, 0x0F, 0x14, 0x15, 0x16, 0x17, 0x1C, 0x1D, 0x1E, 0x1F, 0x28,
   0x29, 0x2B, 0x2C, 0x2D, 0x2E, 0x2F] ++
  [0x30, 0x31, 0x32, 0x33, 0x34, 0x35, 0x36, 0x37, 0x38, 0x39, 0x3A, 0x3B, 0x3C, 0x3D, 0x3E, 0x3F]

/-- The instructions that write HI (R21). -/
def WritesHi : Instr → Prop
  | .mult .. | .multu .. | .div .. | .divu .. | .mthi .. => True
  | _ => False

/-- The instructions that write LO (R21). -/
def WritesLo : Instr → Prop
  | .mult .. | .multu .. | .div .. | .divu .. | .mtlo .. => True
  | _ => False

/-- The instruction that reads HI (R21). -/
def ReadsHi : Instr → Prop
  | .mfhi .. => True
  | _ => False

/-- The instruction that reads LO (R21). -/
def ReadsLo : Instr → Prop
  | .mflo .. => True
  | _ => False

/-- The general register an instruction writes: the field its rule names, and register 31 for jal (40_alu_register.md to
44_control.md). -/
def destination : Instr → Option RegNum
  | .sll rd .. | .srl rd .. | .sra rd .. => some rd
  | .add rd .. | .addu rd .. | .sub rd .. | .subu rd .. | .and rd .. | .or rd .. | .xor rd .. | .nor rd .. | .slt rd .. =>
    some rd
  | .mfhi rd | .mflo rd | .jalr rd _ => some rd
  | .addi rt .. | .addiu rt .. | .slti rt .. | .andi rt .. | .ori rt .. | .xori rt .. | .lui rt _ => some rt
  | .lb rt .. | .lh rt .. | .lw rt .. => some rt
  | .jal _ => some 31#5
  | .jr _ | .j _ | .beq .. | .bne .. | .blez .. | .bgtz .. | .syscall => none
  | .mthi _ | .mtlo _ | .mult .. | .multu .. | .div .. | .divu .. => none
  | .sb .. | .sh .. | .sw .. => none

/-- A store's base register, offset, width in bytes and source register (R119 to R121). -/
structure StoreOperands where
  base   : RegNum
  offset : Imm16
  bytes  : Nat
  source : RegNum
  deriving DecidableEq, Repr

/-- The operands of a store, and none for an instruction that stores nothing (R119 to R121). -/
def storeOperands : Instr → Option StoreOperands
  | .sb rt rs imm => some ⟨rs, imm, 1, rt⟩
  | .sh rt rs imm => some ⟨rs, imm, 2, rt⟩
  | .sw rt rs imm => some ⟨rs, imm, 4, rt⟩
  | _ => none

/-- The row of the opcode table that an instruction belongs to. -/
def mnemonic : Instr → String
  | .sll .. => "sll" | .srl .. => "srl" | .sra .. => "sra" | .jr .. => "jr" | .jalr .. => "jalr" | .syscall => "syscall"
  | .mfhi .. => "mfhi" | .mthi .. => "mthi" | .mflo .. => "mflo" | .mtlo .. => "mtlo"
  | .mult .. => "mult" | .multu .. => "multu" | .div .. => "div" | .divu .. => "divu"
  | .add .. => "add" | .addu .. => "addu" | .sub .. => "sub" | .subu .. => "subu"
  | .and .. => "and" | .or .. => "or" | .xor .. => "xor" | .nor .. => "nor" | .slt .. => "slt"
  | .j .. => "j" | .jal .. => "jal" | .beq .. => "beq" | .bne .. => "bne" | .blez .. => "blez" | .bgtz .. => "bgtz"
  | .addi .. => "addi" | .addiu .. => "addiu" | .slti .. => "slti" | .andi .. => "andi" | .ori .. => "ori"
  | .xori .. => "xori" | .lui .. => "lui"
  | .lb .. => "lb" | .lh .. => "lh" | .lw .. => "lw" | .sb .. => "sb" | .sh .. => "sh" | .sw .. => "sw"

/-- The branches and jumps (44_control.md). -/
def ControlTransfer : Instr → Prop
  | .beq .. | .bne .. | .blez .. | .bgtz .. | .j .. | .jal .. | .jr .. | .jalr .. => True
  | _ => False

/-- A divide whose divisor is zero in `s`. -/
def DividesByZero (s : State) : Instr → Prop
  | .div _ b | .divu _ b => x s b = 0#32
  | _ => False

/-- The next state changed, any other outcome kept. -/
def onNext (f : State → State) : Host.Outcome State Fault Refusal → Host.Outcome State Fault Refusal
  | .next t => .next (f t)
  | .fault r => .fault r
  | .refused r => .refused r

/-- The state with another value in CURRENT.hi. -/
def withHi (h : Word) (s : State) : State := { s with cur := { s.cur with hi := h } }

/-- The state with another value in CURRENT.lo. -/
def withLo (l : Word) (s : State) : State := { s with cur := { s.cur with lo := l } }

end Sys2Proof.Claims

open Sys2Proof Sys2Proof.Machine Sys2Proof.Claims

/-! ### Register-format arithmetic, logic and shifts (40_alu_register.md) -/

/-- R86, R87: add and addu write the sum modulo 2^32 to rd, from every word of their funct, and write nothing else.
The encoding's numbers are the spec's decisions D1 and D2. -/
def Obligations.AddAndAdduWriteTheSum : Prop :=
  RegisterWord 0x20 (fun w => .add (rd w) (rs w) (rt w)) ∧ RegisterWord 0x21 (fun w => .addu (rd w) (rs w) (rt w)) ∧
  ∀ (s : State) (d a b : RegNum),
    (∃ t, exec (.add d a b) s = .next t ∧ (y t d).toNat = ((x s a).toNat + (x s b).toNat) % 2 ^ 32 ∧ OnlyRegister s t d) ∧
    (∃ t, exec (.addu d a b) s = .next t ∧ (y t d).toNat = ((x s a).toNat + (x s b).toNat) % 2 ^ 32 ∧ OnlyRegister s t d)

/-- R88, R89: sub and subu write the difference modulo 2^32 to rd, and write nothing else.
The encoding's numbers are the spec's decisions D1 and D2. -/
def Obligations.SubAndSubuWriteTheDifference : Prop :=
  RegisterWord 0x22 (fun w => .sub (rd w) (rs w) (rt w)) ∧ RegisterWord 0x23 (fun w => .subu (rd w) (rs w) (rt w)) ∧
  ∀ (s : State) (d a b : RegNum),
    (∃ t, exec (.sub d a b) s = .next t ∧
      ((y t d).toNat : Int) = (((x s a).toNat : Int) - ((x s b).toNat : Int)) % 2 ^ 32 ∧ OnlyRegister s t d) ∧
    (∃ t, exec (.subu d a b) s = .next t ∧
      ((y t d).toNat : Int) = (((x s a).toNat : Int) - ((x s b).toNat : Int)) % 2 ^ 32 ∧ OnlyRegister s t d)

/-- R90 to R93: and, or, xor and nor, bit by bit.
The encoding's numbers are the spec's decisions D1 and D2. -/
def Obligations.BitwiseRegisterOperations : Prop :=
  RegisterWord 0x24 (fun w => .and (rd w) (rs w) (rt w)) ∧ RegisterWord 0x25 (fun w => .or (rd w) (rs w) (rt w)) ∧
  RegisterWord 0x26 (fun w => .xor (rd w) (rs w) (rt w)) ∧ RegisterWord 0x27 (fun w => .nor (rd w) (rs w) (rt w)) ∧
  ∀ (s : State) (d a b : RegNum),
    (∃ t, exec (.and d a b) s = .next t ∧ OnlyRegister s t d ∧
      ∀ k, k < 32 → (y t d).getLsbD k = ((x s a).getLsbD k && (x s b).getLsbD k)) ∧
    (∃ t, exec (.or d a b) s = .next t ∧ OnlyRegister s t d ∧
      ∀ k, k < 32 → (y t d).getLsbD k = ((x s a).getLsbD k || (x s b).getLsbD k)) ∧
    (∃ t, exec (.xor d a b) s = .next t ∧ OnlyRegister s t d ∧
      ∀ k, k < 32 → (y t d).getLsbD k = ((x s a).getLsbD k ^^ (x s b).getLsbD k)) ∧
    (∃ t, exec (.nor d a b) s = .next t ∧ OnlyRegister s t d ∧
      ∀ k, k < 32 → (y t d).getLsbD k = !((x s a).getLsbD k || (x s b).getLsbD k))

/-- R94: slt writes 1 or 0 by signed comparison.
The encoding's numbers are the spec's decisions D1 and D2. -/
def Obligations.SltComparesSigned : Prop :=
  RegisterWord 0x2A (fun w => .slt (rd w) (rs w) (rt w)) ∧
  ∀ (s : State) (d a b : RegNum),
    ∃ t, exec (.slt d a b) s = .next t ∧ OnlyRegister s t d ∧
      ((x s a).toInt < (x s b).toInt → (y t d).toNat = 1) ∧ (¬ (x s a).toInt < (x s b).toInt → (y t d).toNat = 0)

/-- R95, R96, R97: the three shifts by shamt. Zeros enter in sll and srl; copies of bit 31 enter in sra.
The encoding's numbers are the spec's decisions D1 and D2. -/
def Obligations.ShiftsByShamt : Prop :=
  RegisterWord 0x00 (fun w => .sll (rd w) (rt w) (sh w)) ∧ RegisterWord 0x02 (fun w => .srl (rd w) (rt w) (sh w)) ∧
  RegisterWord 0x03 (fun w => .sra (rd w) (rt w) (sh w)) ∧
  ∀ (s : State) (d b : RegNum) (k : Shamt),
    (∃ t, exec (.sll d b k) s = .next t ∧ OnlyRegister s t d ∧
      (y t d).toNat = ((x s b).toNat * 2 ^ k.toNat) % 2 ^ 32) ∧
    (∃ t, exec (.srl d b k) s = .next t ∧ OnlyRegister s t d ∧ (y t d).toNat = (x s b).toNat / 2 ^ k.toNat) ∧
    (∃ t, exec (.sra d b k) s = .next t ∧ OnlyRegister s t d ∧
      ((y t d).toNat : Int) = ((x s b).toInt / 2 ^ k.toNat) % 2 ^ 32 ∧
      ∀ j, j < 32 → (y t d).getLsbD j = if j + k.toNat < 32 then (x s b).getLsbD (j + k.toNat) else (x s b).getLsbD 31)

/-! ### Multiply, divide and HI/LO (41_muldiv_hilo.md) -/

/-- R98, R99 (the signedness is the spec's decision D10): HI and LO together are the exact product, of the signed values
modulo 2^64 for mult, of the unsigned values for multu; LO is the same for both.
The encoding's numbers are the spec's decisions D1 and D2. -/
def Obligations.MultiplyIsExactTo64Bits : Prop :=
  RegisterWord 0x18 (fun w => .mult (rs w) (rt w)) ∧ RegisterWord 0x19 (fun w => .multu (rs w) (rt w)) ∧
  ∀ (s : State) (a b : RegNum),
    (∃ t, exec (.mult a b) s = .next t ∧ OnlyHiLo s t ∧
      ((t.next.hi.toNat * 2 ^ 32 + t.next.lo.toNat : Nat) : Int) = ((x s a).toInt * (x s b).toInt) % 2 ^ 64) ∧
    (∃ t, exec (.multu a b) s = .next t ∧ OnlyHiLo s t ∧
      t.next.hi.toNat * 2 ^ 32 + t.next.lo.toNat = (x s a).toNat * (x s b).toNat) ∧
    (∃ t u, exec (.mult a b) s = .next t ∧ exec (.multu a b) s = .next u ∧ t.next.lo = u.next.lo)

/-- R100 (the spec's decisions D11 and D12): a signed divide with a nonzero divisor writes the quotient truncated toward
zero to LO and the remainder to HI, each modulo 2^32.
The encoding's numbers are the spec's decisions D1 and D2. -/
def Obligations.DivWritesTruncatedQuotient : Prop :=
  RegisterWord 0x1A (fun w => .div (rs w) (rt w)) ∧
  ∀ (s : State) (a b : RegNum), x s b ≠ 0#32 →
    ∃ t, exec (.div a b) s = .next t ∧ OnlyHiLo s t ∧
      (t.next.lo.toNat : Int) = ((x s a).toInt.tdiv (x s b).toInt) % 2 ^ 32 ∧
      (t.next.hi.toNat : Int) = ((x s a).toInt - (x s a).toInt.tdiv (x s b).toInt * (x s b).toInt) % 2 ^ 32

/-- R107 (c), R100: apart from -2^31 / -1 the quotient and the remainder of div are exact, the remainder is smaller than
the divisor and has the dividend's sign or is 0; at -2^31 / -1 LO is 0x80000000 and HI is 0 (the spec's decision D12). -/
def Obligations.DivIdentityAndOverflowCorner : Prop :=
  ∀ (s : State) (a b : RegNum), x s b ≠ 0#32 →
    ∃ t, exec (.div a b) s = .next t ∧
      (¬(x s a = 0x80000000#32 ∧ x s b = 0xFFFFFFFF#32) →
        (x s a).toInt = t.next.lo.toInt * (x s b).toInt + t.next.hi.toInt ∧
        t.next.hi.toInt.natAbs < (x s b).toInt.natAbs ∧
        (t.next.hi.toInt = 0 ∨ (0 < t.next.hi.toInt ↔ 0 < (x s a).toInt))) ∧
      (x s a = 0x80000000#32 ∧ x s b = 0xFFFFFFFF#32 → t.next.lo = 0x80000000#32 ∧ t.next.hi = 0#32)

/-- R101 with a nonzero divisor, and the source's property `a = LO*b + HI`: divu writes the floor quotient to LO and the
remainder to HI.
The encoding's numbers are the spec's decisions D1 and D2. -/
def Obligations.DivuWritesFloorQuotient : Prop :=
  RegisterWord 0x1B (fun w => .divu (rs w) (rt w)) ∧
  ∀ (s : State) (a b : RegNum), x s b ≠ 0#32 →
    ∃ t, exec (.divu a b) s = .next t ∧ OnlyHiLo s t ∧
      t.next.lo.toNat = (x s a).toNat / (x s b).toNat ∧ t.next.hi.toNat = (x s a).toNat % (x s b).toNat ∧
      (x s a).toNat = t.next.lo.toNat * (x s b).toNat + t.next.hi.toNat ∧ t.next.hi.toNat < (x s b).toNat

/-- R137, R139 (the spec's decision D13): div and divu with a zero divisor stop the run with DIVIDE_BY_ZERO, the divide's
own address and word, HI = LO = 0, and write nothing else; NEXT.pc keeps its preset. -/
def Obligations.DivideByZeroStopsTheRun : Prop :=
  ∀ (s : State) (a b : RegNum), x s b = 0#32 →
    (∃ t, exec (.div a b) s = .next t ∧ t.next.hi = 0#32 ∧ t.next.lo = 0#32 ∧ t.runFlag = false ∧
      t.stop = ⟨.divideByZero, s.cur.pc, s.word⟩ ∧ SameBase s t ∧ SameMemory s t ∧ SamePc s t ∧ SameRegs s t) ∧
    (∃ t, exec (.divu a b) s = .next t ∧ t.next.hi = 0#32 ∧ t.next.lo = 0#32 ∧ t.runFlag = false ∧
      t.stop = ⟨.divideByZero, s.cur.pc, s.word⟩ ∧ SameBase s t ∧ SameMemory s t ∧ SamePc s t ∧ SameRegs s t)

/-- R102 to R105 (the fields are the spec's decision D19): the copies between HI or LO of CURRENT and a register.
The encoding's numbers are the spec's decisions D1 and D2. -/
def Obligations.HiLoTransfers : Prop :=
  RegisterWord 0x10 (fun w => .mfhi (rd w)) ∧ RegisterWord 0x11 (fun w => .mthi (rs w)) ∧
  RegisterWord 0x12 (fun w => .mflo (rd w)) ∧ RegisterWord 0x13 (fun w => .mtlo (rs w)) ∧
  ∀ (s : State) (r : RegNum),
    (∃ t, exec (.mfhi r) s = .next t ∧ y t r = s.cur.hi ∧ OnlyRegister s t r) ∧
    (∃ t, exec (.mflo r) s = .next t ∧ y t r = s.cur.lo ∧ OnlyRegister s t r) ∧
    (∃ t, exec (.mthi r) s = .next t ∧ t.next.hi = x s r ∧ t.next.lo = s.next.lo ∧ OnlyHiLo s t) ∧
    (∃ t, exec (.mtlo r) s = .next t ∧ t.next.lo = x s r ∧ t.next.hi = s.next.hi ∧ OnlyHiLo s t)

/-! ### Immediates (42_immediate.md) -/

/-- R108, R110 (no trap in addi is the spec's decision D36, slti's signed comparison D18): addi adds the sign-extended
immediate modulo 2^32, and slti compares with it as signed values.
The encoding's numbers are the spec's decisions D1 and D2. -/
def Obligations.AddiAndSltiSignExtend : Prop :=
  PrimaryWord 0x08 (fun w => .addi (rt w) (rs w) (imm w)) ∧ PrimaryWord 0x0A (fun w => .slti (rt w) (rs w) (imm w)) ∧
  ∀ (s : State) (d a : RegNum) (k : Imm16),
    (∃ t, exec (.addi d a k) s = .next t ∧ OnlyRegister s t d ∧
      ((y t d).toNat : Int) = (((x s a).toNat : Int) + k.toInt) % 2 ^ 32) ∧
    (∃ t, exec (.slti d a k) s = .next t ∧ OnlyRegister s t d ∧
      ((x s a).toInt < k.toInt → (y t d).toNat = 1) ∧ (¬ (x s a).toInt < k.toInt → (y t d).toNat = 0))

/-- R109: addiu adds the ZERO-extended immediate modulo 2^32.
The encoding's numbers are the spec's decisions D1 and D2. -/
def Obligations.AddiuAddsZeroExtended : Prop :=
  PrimaryWord 0x09 (fun w => .addiu (rt w) (rs w) (imm w)) ∧
  ∀ (s : State) (d a : RegNum) (k : Imm16),
    ∃ t, exec (.addiu d a k) s = .next t ∧ OnlyRegister s t d ∧
      (y t d).toNat = ((x s a).toNat + k.toNat) % 2 ^ 32

/-- R111, R112, R113: andi, ori and xori, bit by bit; the immediate has no bit above 15.
The encoding's numbers are the spec's decisions D1 and D2. -/
def Obligations.BitwiseImmediateOperations : Prop :=
  PrimaryWord 0x0C (fun w => .andi (rt w) (rs w) (imm w)) ∧ PrimaryWord 0x0D (fun w => .ori (rt w) (rs w) (imm w)) ∧
  PrimaryWord 0x0E (fun w => .xori (rt w) (rs w) (imm w)) ∧
  ∀ (s : State) (d a : RegNum) (k : Imm16),
    (∃ t, exec (.andi d a k) s = .next t ∧ OnlyRegister s t d ∧
      ∀ j, j < 32 → (y t d).getLsbD j = ((x s a).getLsbD j && (decide (j < 16) && k.getLsbD j))) ∧
    (∃ t, exec (.ori d a k) s = .next t ∧ OnlyRegister s t d ∧
      ∀ j, j < 32 → (y t d).getLsbD j = ((x s a).getLsbD j || (decide (j < 16) && k.getLsbD j))) ∧
    (∃ t, exec (.xori d a k) s = .next t ∧ OnlyRegister s t d ∧
      ∀ j, j < 32 → (y t d).getLsbD j = ((x s a).getLsbD j ^^ (decide (j < 16) && k.getLsbD j)))

/-- R114: lui writes the immediate in the upper half and zeros below, whatever the rs field holds.
The encoding's numbers are the spec's decisions D1 and D2. -/
def Obligations.LuiLoadsTheUpperHalf : Prop :=
  PrimaryWord 0x0F (fun w => .lui (rt w) (imm w)) ∧
  ∀ (s : State) (d : RegNum) (k : Imm16),
    ∃ t, exec (.lui d k) s = .next t ∧ OnlyRegister s t d ∧ (y t d).toNat = k.toNat * 2 ^ 16

/-! ### Loads and stores (43_load_store.md, 20_memory.md) -/

/-- R116: lw reads 4 bytes at `(x[rs] + zext_32(imm16)) mod 2^32`, at every address, aligned or not, mapped or not.
The encoding's numbers are the spec's decisions D1 and D2. -/
def Obligations.LwLoadsWithZeroExtendedOffset : Prop :=
  PrimaryWord 0x23 (fun w => .lw (rt w) (rs w) (imm w)) ∧
  ∀ (s : State) (d a : RegNum) (k : Imm16) (ea : Word), ea.toNat = ((x s a).toNat + k.toNat) % 2 ^ 32 →
    ∃ t, exec (.lw d a k) s = .next t ∧ y t d = s.load ea 4 ∧ OnlyRegister s t d

/-- R117, R118 (the spec's decisions D8 and D9): lb and lh read 1 or 2 bytes at `(x[rs] + sext_32(imm16)) mod 2^32` and
sign-extend them.
The encoding's numbers are the spec's decisions D1 and D2. -/
def Obligations.LbAndLhLoadSignExtended : Prop :=
  PrimaryWord 0x20 (fun w => .lb (rt w) (rs w) (imm w)) ∧ PrimaryWord 0x21 (fun w => .lh (rt w) (rs w) (imm w)) ∧
  ∀ (s : State) (d a : RegNum) (k : Imm16) (ea : Word), (ea.toNat : Int) = (((x s a).toNat : Int) + k.toInt) % 2 ^ 32 →
    (∃ t, exec (.lb d a k) s = .next t ∧ (y t d).toInt = ((s.load ea 1).extractLsb' 0 8).toInt ∧ OnlyRegister s t d) ∧
    (∃ t, exec (.lh d a k) s = .next t ∧ (y t d).toInt = ((s.load ea 2).extractLsb' 0 16).toInt ∧ OnlyRegister s t d)

/-- R119, R120, R121 (the sign-extended offset is the spec's decision D9; bytes past a region's limit are D7): the three
stores store the low 1, 2 or 4 bytes of x[rt] at their effective address and nothing else, at every address. That memory is
in canonical form is the model's invariant (`State.Inv`).
The encoding's numbers are the spec's decisions D1 and D2. -/
def Obligations.StoresWriteLittleEndianBytes : Prop :=
  PrimaryWord 0x28 (fun w => .sb (rt w) (rs w) (imm w)) ∧ PrimaryWord 0x29 (fun w => .sh (rt w) (rs w) (imm w)) ∧
  PrimaryWord 0x2B (fun w => .sw (rt w) (rs w) (imm w)) ∧
  ∀ (s : State) (b a : RegNum) (k : Imm16),
    ((s.eaSigned a k).toNat : Int) = (((x s a).toNat : Int) + k.toInt) % 2 ^ 32 ∧
    (∃ t, exec (.sb b a k) s = .next t ∧ OnlyMemory s t ∧
      (Memory.wf s.mem → StoresBytes s t (s.eaSigned a k) 1 (x s b))) ∧
    (∃ t, exec (.sh b a k) s = .next t ∧ OnlyMemory s t ∧
      (Memory.wf s.mem → StoresBytes s t (s.eaSigned a k) 2 (x s b))) ∧
    (∃ t, exec (.sw b a k) s = .next t ∧ OnlyMemory s t ∧
      (Memory.wf s.mem → StoresBytes s t (s.eaSigned a k) 4 (x s b)))

/-- R119, the source's byte round trip (the spec's decisions D8 and D9): sb to a mapped address, then lb from it, gives the
sign-extended low byte of the stored value. -/
def Obligations.StoreByteThenLoadByte : Prop :=
  ∀ (s : State) (b a d : RegNum) (k : Imm16) (r : Region),
    Memory.wf s.mem → regionOf s.config.regions (s.eaSigned a k) = some r →
    ∃ t u, exec (.sb b a k) s = .next t ∧ exec (.lb d a k) t = .next u ∧
      (y u d).toInt = ((x s b).extractLsb' 0 8).toInt

/-- R50, R52, R54 (the limit rule is the spec's decision D7, the sizes 1 and 2 D8): byte k of `MemRead(a, n)`. The region is
that of the first address; a byte past its limit is 0, and so is every byte of an unmapped access. -/
def Obligations.MemReadAssemblesLittleEndian : Prop :=
  ∀ (s : State) (a : Word) (n k : Nat), n = 1 ∨ n = 2 ∨ n = 4 → k < 4 →
    (s.load a n).extractLsb' (8 * k) 8 =
      match regionOf s.config.regions a with
      | none => 0#8
      | some r => if k < n ∧ a.toNat + k ≤ r.limit.toNat then s.mem.get (a.toNat + k) else 0#8

/-- R52, R53: a read of an unmapped address gives 0, a write there changes nothing; a fetch from an unmapped pc yields the
word 0, which is `sll $0,$0,0`. -/
def Obligations.UnmappedAccessesReadZeroAndAreDropped : Prop :=
  (∀ (s : State) (a : Word) (n : Nat) (v : Word), regionOf s.config.regions a = none →
    s.load a n = 0#32 ∧ s.store a n v = s) ∧
  (∀ s : State, regionOf s.config.regions s.cur.pc = none → s.fetch = 0#32) ∧ decodeWord 0#32 = .ok (.sll 0 0 0)

/-- R56 (derived in the spec): after a 4-byte write whose bytes all lie in one region of a well-formed map, every narrower
read sees its bytes in little-endian order, and a 4-byte read gives the word back. -/
def Obligations.NarrowReadsSeeAStoredWord : Prop :=
  ∀ (s : State) (a v : Word) (r : Region), s.config.wf = true → Memory.wf s.mem →
    regionOf s.config.regions a = some r → a.toNat + 3 ≤ r.limit.toNat →
    (s.store a 4 v).load a 4 = v ∧
    (∀ k : Nat, k < 4 → (s.store a 4 v).load (a + BitVec.ofNat 32 k) 1 = (v.extractLsb' (8 * k) 8).setWidth 32) ∧
    (∀ k : Nat, k < 3 → (s.store a 4 v).load (a + BitVec.ofNat 32 k) 2 = (v.extractLsb' (8 * k) 16).setWidth 32)

/-- R48: in a well-formed map `Region(a)` is the one region that holds a, and the order of the scan does not change the
answer. -/
def Obligations.RegionLookupIsUnique : Prop :=
  ∀ (c : Config) (a : Word), c.wf = true →
    (∀ r, regionOf c.regions a = some r ↔ r ∈ c.regions ∧ r.base.toNat ≤ a.toNat ∧ a.toNat ≤ r.limit.toNat) ∧
    (∀ rs', rs'.Perm c.regions → regionOf rs' a = regionOf c.regions a)

/-- R64, R66 (derived in the spec): the step that runs a sw changes memory at once, so a fetch from that address in the next
step reads the stored word. -/
def Obligations.NextFetchSeesAStore : Prop :=
  ∀ (s : State) (b a : RegNum) (k : Imm16) (r : Region),
    s.Inv → s.runFlag = true → decodeWord s.fetch = .ok (.sw b a k) →
    regionOf s.config.regions (s.eaSigned a k) = some r → (s.eaSigned a k).toNat + 3 ≤ r.limit.toNat →
    ∃ t, step s = .next t ∧ ({ t with cur := { t.cur with pc := s.eaSigned a k } } : State).fetch = x s b

/-! ### Branches and jumps (44_control.md) -/

/-- R123, R124: beq and bne. Taken, NEXT.pc is the branch's OWN address plus the offset; not taken, the preset stands.
The encoding's numbers are the spec's decisions D1 and D2. -/
def Obligations.BeqAndBneBranch : Prop :=
  PrimaryWord 0x04 (fun w => .beq (rs w) (rt w) (imm w)) ∧ PrimaryWord 0x05 (fun w => .bne (rs w) (rt w) (imm w)) ∧
  ∀ (s : State) (a b : RegNum) (k : Imm16),
    (∃ t, exec (.beq a b k) s = .next t ∧ OnlyPc s t ∧
      (x s a = x s b → (t.next.pc.toNat : Int) = ((s.cur.pc.toNat : Int) + 4 * k.toInt) % 2 ^ 32) ∧
      (x s a ≠ x s b → SamePc s t)) ∧
    (∃ t, exec (.bne a b k) s = .next t ∧ OnlyPc s t ∧
      (x s a ≠ x s b → (t.next.pc.toNat : Int) = ((s.cur.pc.toNat : Int) + 4 * k.toInt) % 2 ^ 32) ∧
      (x s a = x s b → SamePc s t))

/-- R125, R126 (the signed test and the ignored rt are the spec's decision D18): blez and bgtz.
The encoding's numbers are the spec's decisions D1 and D2. -/
def Obligations.BlezAndBgtzBranch : Prop :=
  PrimaryWord 0x06 (fun w => .blez (rs w) (imm w)) ∧ PrimaryWord 0x07 (fun w => .bgtz (rs w) (imm w)) ∧
  ∀ (s : State) (a : RegNum) (k : Imm16),
    (∃ t, exec (.blez a k) s = .next t ∧ OnlyPc s t ∧
      ((x s a).toInt ≤ 0 → (t.next.pc.toNat : Int) = ((s.cur.pc.toNat : Int) + 4 * k.toInt) % 2 ^ 32) ∧
      (0 < (x s a).toInt → SamePc s t)) ∧
    (∃ t, exec (.bgtz a k) s = .next t ∧ OnlyPc s t ∧
      (0 < (x s a).toInt → (t.next.pc.toNat : Int) = ((s.cur.pc.toNat : Int) + 4 * k.toInt) % 2 ^ 32) ∧
      ((x s a).toInt ≤ 0 → SamePc s t))

/-- R127, R128: j and jal replace the low 28 bits of the jump's own address by target26 and two zeros; jal also writes
`pc + 4` to register 31.
The encoding's numbers are the spec's decisions D1 and D2. -/
def Obligations.JumpsReplaceTheLow28Bits : Prop :=
  PrimaryWord 0x02 (fun w => .j (tgt w)) ∧ PrimaryWord 0x03 (fun w => .jal (tgt w)) ∧
  ∀ (s : State) (k : Target26),
    (∃ t, exec (.j k) s = .next t ∧ OnlyPc s t ∧
      t.next.pc.toNat = s.cur.pc.toNat / 2 ^ 28 * 2 ^ 28 + k.toNat * 4) ∧
    (∃ t, exec (.jal k) s = .next t ∧ OnlyRegisterAndPc s t 31#5 ∧
      t.next.pc.toNat = s.cur.pc.toNat / 2 ^ 28 * 2 ^ 28 + k.toNat * 4 ∧
      (y t 31#5).toNat = (s.cur.pc.toNat + 4) % 2 ^ 32)

/-- R129: jr jumps to x[rs], whatever its alignment and whether or not it is mapped.
The encoding's numbers are the spec's decisions D1 and D2. -/
def Obligations.JrJumpsToRegister : Prop :=
  RegisterWord 0x08 (fun w => .jr (rs w)) ∧
  ∀ (s : State) (a : RegNum), ∃ t, exec (.jr a) s = .next t ∧ t.next.pc = x s a ∧ OnlyPc s t

/-- R130 (the link register rd is the spec's decision D19): jalr jumps to CURRENT's x[rs] and links `pc + 4` in rd, also
when rd = rs.
The encoding's numbers are the spec's decisions D1 and D2. -/
def Obligations.JalrJumpsToTheOldValue : Prop :=
  RegisterWord 0x09 (fun w => .jalr (rd w) (rs w)) ∧
  ∀ (s : State) (d a : RegNum),
    ∃ t, exec (.jalr d a) s = .next t ∧ t.next.pc = x s a ∧ (y t d).toNat = (s.cur.pc.toNat + 4) % 2 ^ 32 ∧
      OnlyRegisterAndPc s t d

/-- R82 (derived in the spec): with the field the assembler computes from a label, each of the four branches, when taken,
reaches every label that is a multiple of 4 bytes away and in its reach, at both ends of it, and j and jal reach every
multiple of 4 with their own high 4 bits. The signed tests of blez and bgtz are the spec's decision D18. -/
def Obligations.LabelsReachTheirTargets : Prop :=
  ∀ (s : State) (a b : RegNum) (l : Word),
    (∀ d : Int, d % 4 = 0 → -2 ^ 17 ≤ d → d ≤ 2 ^ 17 - 4 → (l.toNat : Int) = ((s.cur.pc.toNat : Int) + d) % 2 ^ 32 →
      (x s a = x s b → ∃ t, exec (.beq a b (branchField s.cur.pc l)) s = .next t ∧ t.next.pc = l) ∧
      (x s a ≠ x s b → ∃ t, exec (.bne a b (branchField s.cur.pc l)) s = .next t ∧ t.next.pc = l) ∧
      ((x s a).toInt ≤ 0 → ∃ t, exec (.blez a (branchField s.cur.pc l)) s = .next t ∧ t.next.pc = l) ∧
      (0 < (x s a).toInt → ∃ t, exec (.bgtz a (branchField s.cur.pc l)) s = .next t ∧ t.next.pc = l)) ∧
    (l.toNat % 4 = 0 → l.toNat / 2 ^ 28 = s.cur.pc.toNat / 2 ^ 28 →
      (∃ t, exec (.j (jumpField l)) s = .next t ∧ t.next.pc = l) ∧
      (∃ t, exec (.jal (jumpField l)) s = .next t ∧ t.next.pc = l))

/-! ### System (45_system.md, 60_exceptions.md) -/

/-- R132 (the record is the spec's decision D21, the pc D15): syscall halts the run, whatever its unused bits and every
register hold, and writes nothing but the RunFlag and the stop record.
The encoding's numbers are the spec's decisions D1 and D2. -/
def Obligations.SyscallHalts : Prop :=
  RegisterWord 0x0C (fun _ => .syscall) ∧
  ∀ s : State, ∃ t, exec .syscall s = .next t ∧ t.runFlag = false ∧ t.stop = ⟨.halt, s.cur.pc, s.word⟩ ∧
    SameBase s t ∧ SameMemory s t ∧ SameHiLo s t ∧ SamePc s t ∧ SameRegs s t

/-- R134, R137, R138 (the spec's decision D14): a step on an illegal word stops the run, records the word and its address,
counts, and leaves CURRENT and memory as they were. -/
def Obligations.IllegalWordStopsTheRun : Prop :=
  ∀ (s : State) (e : Reject), s.runFlag = true → s.next = s.cur → decodeWord s.fetch = .error e →
    ∃ t, step s = .next t ∧ t.cur = s.cur ∧ t.next = s.cur ∧ SameMemory s t ∧ t.runFlag = false ∧
      t.stop = ⟨.illegalInstruction, s.cur.pc, s.fetch⟩ ∧ t.count = s.count + 1 ∧ t.config = s.config ∧ t.word = 0#32

/-- R76, R77: the words that are no instruction are exactly those whose opcode, or whose funct when the opcode is 0, is in
the spec's list. -/
def Obligations.IllegalWordsAreExactlyTheListed : Prop :=
  ∀ w : Word, (∃ e, decodeWord w = .error e) ↔ op w ∈ illegalOpcodes ∨ op w = 0#6 ∧ fn w ∈ illegalFuncts

/-! ### Encoding (30_encoding.md) -/

/-- R68 to R75: the decoder reads back every instruction the encoder writes, with every operand at every value; from bytes
too, whatever follows. -/
def Obligations.DecodeReadsBackEncode : Prop :=
  ∀ (i : Instr) (rest : List Byte),
    decodeWord (encode i) = .ok i ∧ decodeBytes (bytesOfWord (encode i) ++ rest) = .ok (i, rest)

/-- R70, R71: encoding what a word decodes to gives the word with its unused bits cleared and no other bit changed. That
unused bits are written as 0 is the model's choice (log 10). -/
def Obligations.EncodeClearsOnlyUnusedBits : Prop :=
  ∀ (w : Word) (i : Instr), decodeWord w = .ok i → encode i = w &&& usedMask i

/-- R71: a field that an instruction does not use is ignored; the opcode, and the funct when the opcode is 0, alone decide
whether a word is an instruction and which row of the table it is. The places of the fields are the spec's decision D1, the
numbers D2, and which fields blez, bgtz, the HI/LO moves, jr and jalr ignore D18 and D19 (log 13). -/
def Obligations.UnusedFieldsAreIgnored : Prop :=
  (∀ (w v : Word) (i : Instr), decodeWord w = .ok i → w &&& usedMask i = v &&& usedMask i → decodeWord v = .ok i) ∧
  (∀ (w v : Word) (e : Reject), decodeWord w = .error e → op v = op w → (op w = 0#6 → fn v = fn w) →
    decodeWord v = .error e) ∧
  (∀ (w v : Word) (i : Instr), decodeWord w = .ok i → op v = op w → (op w = 0#6 → fn v = fn w) →
    ∃ j, decodeWord v = .ok j ∧ mnemonic j = mnemonic i)

/-- R85 (derived in the spec): the four words of the source's scenario, the word 0 (R79) and the link and branch words of
the spec's examples decode as the spec says; 0x01095020 is add to register 10 (C1). -/
def Obligations.SampleWordsDecode : Prop :=
  decodeWord 0x20080005#32 = .ok (.addi 8 0 5) ∧ decodeWord 0x2009000A#32 = .ok (.addi 9 0 10) ∧
  decodeWord 0x01095020#32 = .ok (.add 10 8 9) ∧ decodeWord 0x0000000C#32 = .ok .syscall ∧
  decodeWord 0x00000000#32 = .ok (.sll 0 0 0) ∧ decodeWord 0x11090003#32 = .ok (.beq 8 9 3) ∧
  decodeWord 0x0120F809#32 = .ok (.jalr 31 9) ∧ decodeWord 0x2C000000#32 = .error (.illegalOpcode 0x0B)

/-! ### The step (10_state.md) -/

/-- R35: when the word at CURRENT.pc decodes to i, a step of a RUNNING machine is exec of i at the state with NEXT.pc preset
to CURRENT.pc + 4 and the fetched word at hand (log 4), then the commit and the count; the bytes at CURRENT.pc are what
decodes. -/
def Obligations.StepRunsTheDecodedInstruction : Prop :=
  ∀ (s : State) (i : Instr), s.runFlag = true → decodeWord (s.load s.cur.pc 4) = .ok i →
    ∀ t, exec i { s with next := { s.next with pc := s.cur.pc + 4#32 }, word := s.load s.cur.pc 4 } = .next t →
      step s = .next { t with cur := t.next, count := t.count + 1, word := 0#32 }

/-- R35 (the spec's decision D16): a step while STOPPED changes nothing. -/
def Obligations.StepWhileStoppedDoesNothing : Prop :=
  ∀ s : State, s.runFlag = false → step s = .next s

/-- R32, R145: every instruction answers a next state in every state, none mutates CURRENT, the counter or the
configuration, and every step answers a next state: nothing faults. -/
def Obligations.EveryInstructionAnswersNext : Prop :=
  (∀ (i : Instr) (s : State), ∃ t, exec i s = .next t ∧ SameBase s t) ∧ (∀ s : State, ∃ t, step s = .next t)

/-- R31 (derived in the spec; the operand fields and the stores' offsets are its decisions D9 and D19, log 13): beside NEXT.pc
an instruction writes its destination register and no other, or HI and LO as R21 lists, or the 1, 2 or 4 bytes of one
`MemWrite` at the effective address of its own operands; and no instruction writes two of the three. That memory is in
canonical form is the model's invariant (`State.Inv`). -/
def Obligations.AtMostOneWritePerInstruction : Prop :=
  ∀ (i : Instr) (s : State), ∃ t, exec i s = .next t ∧
    (∀ r, destination i ≠ some r → y t r = y s r) ∧
    (¬ WritesHi i → t.next.hi = s.next.hi) ∧ (¬ WritesLo i → t.next.lo = s.next.lo) ∧
    (storeOperands i = none → t.mem = s.mem) ∧
    (∀ o, storeOperands i = some o →
      (o.bytes = 1 ∨ o.bytes = 2 ∨ o.bytes = 4) ∧
      t.mem = (s.store (s.eaSigned o.base o.offset) o.bytes (x s o.source)).mem ∧
      (Memory.wf s.mem → StoresBytes s t (s.eaSigned o.base o.offset) o.bytes (x s o.source))) ∧
    ((destination i).isSome → ¬ WritesHi i ∧ ¬ WritesLo i ∧ storeOperands i = none) ∧
    ((storeOperands i).isSome → ¬ WritesHi i ∧ ¬ WritesLo i)

/-- R21: among the instructions only mult, multu, div, divu, mthi (HI) and mtlo (LO) write HI and LO, and only mfhi (HI) and
mflo (LO) read them: with another value in HI every instruction but mfhi, and with another value in LO every instruction
but mflo, does exactly the same. Among the host's commands that leave the program and the run alone only `high` writes HI,
only `low` writes LO, and only `rdump` shows them. -/
def Obligations.HiLoReadersAndWritersAreTheListed : Prop :=
  (∀ (i : Instr) (s : State), ∃ t, exec i s = .next t ∧
    (¬ WritesHi i → t.next.hi = s.next.hi) ∧ (¬ WritesLo i → t.next.lo = s.next.lo)) ∧
  (∀ (i : Instr) (s : State) (v : Word),
    (¬ ReadsHi i → exec i (withHi v s) = onNext (withHi v) (exec i s)) ∧
    (¬ ReadsLo i → exec i (withLo v s) = onNext (withLo v) (exec i s))) ∧
  (∀ (s : State) (reg val start stop : Nat), ∀ c ∈ [ShellCommand.rdump, .input reg val, .mdump start stop, .print, .help,
      .quit, .explicitStop, .memoryPatch reg val],
    (shell c s).1.cur.hi = s.cur.hi ∧ (shell c s).1.cur.lo = s.cur.lo ∧
    (c ≠ .rdump → ∀ v, (shell c (withHi v s)).2 = (shell c s).2 ∧ (shell c (withLo v s)).2 = (shell c s).2)) ∧
  (∀ (s : State) (val : Nat), (shell (.high val) s).1.cur.lo = s.cur.lo ∧ (shell (.low val) s).1.cur.hi = s.cur.hi)

/-- R20: a step that runs an instruction other than a branch or jump advances the pc to `(CURRENT.pc + 4) mod 2^32`. -/
def Obligations.PcAdvancesByFour : Prop :=
  ∀ (s : State) (i : Instr), s.runFlag = true → decodeWord s.fetch = .ok i → ¬ ControlTransfer i →
    ∃ t, step s = .next t ∧ t.cur.pc.toNat = (s.cur.pc.toNat + 4) % 2 ^ 32

/-- R34 (the spec's decision D13 for the third row, D21 for the codes, D16 and D22 for STOPPED): a step moves RUNNING to
STOPPED exactly when the word is illegal, a syscall, or a divide by zero, and the stop record names the cause; a step never
sets the RunFlag. -/
def Obligations.StopCausesAreExactlyTheListed : Prop :=
  (∀ s : State, s.runFlag = true →
    ∃ t, step s = .next t ∧
      (t.runFlag = false ↔ (∃ e, decodeWord s.fetch = .error e) ∨ decodeWord s.fetch = .ok .syscall ∨
        ∃ i, decodeWord s.fetch = .ok i ∧ DividesByZero s i) ∧
      ((∃ e, decodeWord s.fetch = .error e) → t.stop.reason.code = 2) ∧
      (decodeWord s.fetch = .ok .syscall → t.stop.reason.code = 1) ∧
      ((∃ i, decodeWord s.fetch = .ok i ∧ DividesByZero s i) → t.stop.reason.code = 3) ∧
      (t.runFlag = true → t.stop = s.stop)) ∧
  (∀ s : State, s.runFlag = false → ∃ t, step s = .next t ∧ t.runFlag = false ∧ t.stop = s.stop)

/-- R26 (the spec's decisions D14 and D17): every step of a RUNNING machine counts once, and `run n` counts at most n, and n
exactly if the machine still runs. -/
def Obligations.CounterCountsEveryStep : Prop :=
  (∀ s : State, s.runFlag = true → ∃ t, step s = .next t ∧ t.count = s.count + 1) ∧
  (∀ (s : State) (n : Nat), (runSteps n s).count ≤ s.count + n ∧
    ((runSteps n s).runFlag = true → (runSteps n s).count = s.count + n))

/-! ### Invariants -/

/-- `State.Inv` holds at reset. The configuration there is the spec's default, a presumption (log 1 to 3). -/
def Obligations.ResetSatisfiesInv : Prop := State.reset.Inv

/-- R28, R43, R45: every step keeps the invariant: the configuration well-formed, memory canonical and within the regions,
NEXT equal to CURRENT between steps, and RunFlag and stop record in agreement. The canonical form and the word in progress
are the model's own (log 4, 8). -/
def Obligations.StepKeepsInv : Prop :=
  ∀ s t : State, s.Inv → step s = .next t → t.Inv

/-- R28, R160: every host command keeps the invariant, rejected commands too. -/
def Obligations.HostCommandsKeepInv : Prop :=
  ∀ (c : ShellCommand) (s : State), s.Inv → (shell c s).1.Inv

/-- R44: no step and no host command adds, removes, moves or resizes a region, nor moves TEXT_BASE; and reset clears every
region to zero: every byte but the program's reads 0. -/
def Obligations.RegionsNeverChange : Prop :=
  (∀ (s t : State), step s = .next t → t.config = s.config) ∧
  (∀ (c : ShellCommand) (s : State), (shell c s).1.config.regions = s.config.regions ∧
    (shell c s).1.config.textBase = s.config.textBase) ∧
  (∀ (s : State) (a : Word),
    (∀ i k : Nat, i < s.config.image.length → k < 4 → a ≠ s.config.textBase + BitVec.ofNat 32 (4 * i + k)) →
    s.resetCommand.readByte a = 0#8)

/-! ### Reset, load and running (70_reset_and_hazards.md) -/

/-- R39 (HI, LO, the pc and the stop record are the spec's decisions D5, D6 and D21): what reset leaves, for every
configuration, in both copies, and in memory: every byte but the program's reads 0, and every word of a program that fits
(R157, D35) reads back at TEXT_BASE + 4i. The last clause, that `State.reset` is this for the default configuration, rests
on the model's log 1 to 3 (the default map and TEXT_BASE, the empty image). -/
def Obligations.ResetValues : Prop :=
  ∀ c : Config,
    (∀ r, RegFile.get (State.resetFrom c).cur.regs r = 0#32) ∧ (State.resetFrom c).cur.hi = 0#32 ∧
    (State.resetFrom c).cur.lo = 0#32 ∧ (State.resetFrom c).cur.pc = c.textBase ∧
    (State.resetFrom c).next = (State.resetFrom c).cur ∧ (State.resetFrom c).runFlag = true ∧
    (State.resetFrom c).count = 0 ∧ (State.resetFrom c).stop = ⟨.none, 0#32, 0#32⟩ ∧ (State.resetFrom c).config = c ∧
    (∀ a : Word, (∀ i k : Nat, i < c.image.length → k < 4 → a ≠ c.textBase + BitVec.ofNat 32 (4 * i + k)) →
      (State.resetFrom c).readByte a = 0#8) ∧
    (c.wf = true → c.programFits = true → ∀ (i : Nat) (w : Word), c.image[i]? = some w →
      (State.resetFrom c).load (c.textBase + BitVec.ofNat 32 (4 * i)) 4 = w) ∧
    State.resetFrom Config.default = State.reset

/-- R154: reset depends on nothing of the state before it but the configuration, which it does not change: two resets in a
row are one, and a reset after any run is the reset before it. -/
def Obligations.ResetForgetsTheRun : Prop :=
  ∀ (s u : State) (n : Nat),
    s.resetCommand.resetCommand = s.resetCommand ∧ s.resetCommand.config = s.config ∧
    (u.config = s.config → u.resetCommand = s.resetCommand) ∧
    (runSteps n s).resetCommand = s.resetCommand ∧ (runSteps n s.resetCommand).resetCommand = s.resetCommand

/-- R158 (R157 gives the premises; file errors are the spec's decision D35): after reset, word i of a program that fits is
the 4-byte word at TEXT_BASE + 4i. -/
def Obligations.LoaderPlacesEveryWord : Prop :=
  ∀ (c : Config) (i : Nat) (w : Word), c.wf = true → c.programFits = true → c.image[i]? = some w →
    (State.resetFrom c).load (c.textBase + BitVec.ofNat 32 (4 * i)) 4 = w

/-- R36 (the spec's decision D28): `run m` then `run n` is `run (m + n)`; `run 0` performs no step; a STOPPED machine
performs none. -/
def Obligations.RunComposes : Prop :=
  ∀ (s : State) (m n : Nat), runSteps (m + n) s = runSteps n (runSteps m s) ∧ runSteps 0 s = s ∧
    (s.runFlag = false → runSteps n s = s)

/-- R37, R174: the end of a run is unique, and it is what some number of steps reaches with the machine STOPPED. The bound
on `sim` is the model's (log 9). -/
def Obligations.EndOfRunIsUnique : Prop :=
  ∀ s t u : State, (EndsIn s t ↔ ∃ n, runSteps n s = t ∧ t.runFlag = false) ∧ (EndsIn s t → EndsIn s u → t = u)

/-- R37 (derived in the spec): with zeroed memory a RUNNING machine executes `sll $0,$0,0` for ever: n steps advance the pc
by 4n and the counter by n and change nothing else, and no bound gives a final state. -/
def Obligations.ZeroedMemoryRunsForever : Prop :=
  ∀ (s : State) (n : Nat), s.runFlag = true → s.next = s.cur → s.mem = [] → s.word = 0#32 →
    runSteps n s =
      { s with
        cur  := { s.cur with pc := s.cur.pc + BitVec.ofNat 32 (4 * n) }
        next := { s.cur with pc := s.cur.pc + BitVec.ofNat 32 (4 * n) }
        count := s.count + n } ∧
    runToCompletion n s = none

/-- R141, R152 (the spec's decision D22): while STOPPED, no command but reset and load changes the RunFlag, the stop record,
the pc or the counter. -/
def Obligations.OnlyResetLeavesStopped : Prop :=
  ∀ (c : ShellCommand) (s : State), s.runFlag = false → c ≠ .reset → (∀ image, c ≠ .load image) →
    (shell c s).1.runFlag = false ∧ (shell c s).1.stop = s.stop ∧ (shell c s).1.cur.pc = s.cur.pc ∧
    (shell c s).1.count = s.count

/-! ### Patches, dumps and the explicit stop -/

/-- R163, R167 (the ranges are the spec's decision D33, the memory patch D24): input, high and low write both copies and
nothing else; the memory patch stores 4 bytes and nothing else; an index above 31 or a value of more than 32 bits is
rejected with no change. -/
def Obligations.HostPatches : Prop :=
  ∀ (s : State) (reg val : Nat),
    (reg < 32 → val < 2 ^ 32 → ∃ t, shell (.input reg val) s = (t, .done) ∧
      (RegFile.get t.cur.regs (BitVec.ofNat 5 reg)).toNat = val ∧
      (RegFile.get t.next.regs (BitVec.ofNat 5 reg)).toNat = val ∧
      (∀ q : RegNum, q.toNat ≠ reg → RegFile.get t.cur.regs q = x s q ∧ RegFile.get t.next.regs q = y s q) ∧
      t = { s with cur := { s.cur with regs := t.cur.regs }, next := { s.next with regs := t.next.regs } }) ∧
    (val < 2 ^ 32 → ∃ t, shell (.high val) s = (t, .done) ∧ t.cur.hi.toNat = val ∧ t.next.hi.toNat = val ∧
      t = { s with cur := { s.cur with hi := t.cur.hi }, next := { s.next with hi := t.next.hi } }) ∧
    (val < 2 ^ 32 → ∃ t, shell (.low val) s = (t, .done) ∧ t.cur.lo.toNat = val ∧ t.next.lo.toNat = val ∧
      t = { s with cur := { s.cur with lo := t.cur.lo }, next := { s.next with lo := t.next.lo } }) ∧
    (reg < 2 ^ 32 → val < 2 ^ 32 → ∃ t, shell (.memoryPatch reg val) s = (t, .done) ∧ t = { s with mem := t.mem } ∧
      (Memory.wf s.mem → StoresBytes s t (BitVec.ofNat 32 reg) 4 (BitVec.ofNat 32 val))) ∧
    (32 ≤ reg ∨ 2 ^ 32 ≤ val → shell (.input reg val) s = (s, .rejected)) ∧
    (2 ^ 32 ≤ val → shell (.high val) s = (s, .rejected) ∧ shell (.low val) s = (s, .rejected))

/-- R166, R143 (the spec's decision D23): the explicit stop of a RUNNING machine clears the RunFlag and records
EXTERNAL_STOP with pc and word 0, and changes nothing else; of a STOPPED machine it changes nothing. -/
def Obligations.ExplicitStop : Prop :=
  ∀ s : State,
    (s.runFlag = true →
      (shell .explicitStop s).1 = { s with runFlag := false, stop := ⟨.externalStop, 0#32, 0#32⟩ }) ∧
    (s.runFlag = false → (shell .explicitStop s).1 = s)

/-- R165 (the spec's decision D34): mdump reads the words at start, start + 4, … up to stop, and only those, without wrapping
past the top; the state is unchanged. -/
def Obligations.MemoryDumpReadsTheRange : Prop :=
  ∀ (s : State) (start stop : Nat), start < 2 ^ 32 → stop < 2 ^ 32 →
    ∃ l, shell (.mdump start stop) s = (s, .words l) ∧ ∀ k : Nat,
      (start + 4 * k ≤ stop →
        l[k]? = some (BitVec.ofNat 32 (start + 4 * k), s.load (BitVec.ofNat 32 (start + 4 * k)) 4)) ∧
      (¬ start + 4 * k ≤ stop → l[k]? = none)

/-- R18 (the spec's decision D20): register 0 is ordinary storage: an addi into it, committed by the step, is read back by
later instructions. In the HARDWIRE_R0 variant, which is not this hardware, writes to register 0 are dropped and it reads
0. -/
def Obligations.RegisterZeroIsOrdinary : Prop :=
  (∀ (s : State) (a : RegNum) (k : Imm16), s.runFlag = true → decodeWord s.fetch = .ok (.addi 0 a k) →
    ∃ t, step s = .next t ∧ ((x t 0#5).toNat : Int) = (((x s a).toNat : Int) + k.toInt) % 2 ^ 32) ∧
  (∀ (f : RegFile) (v : Word), RegFile.read false (RegFile.write false f 0#5 v) 0#5 = v ∧
    RegFile.write true f 0#5 v = f ∧ RegFile.read true f 0#5 = 0#32)
end

