-- ==== Sys2Proof/Laws/Encoding.lean ====
section
/-! SUPPORT. What the encoder's three layouts read back as, field by field (30_encoding.md R68, R70), and the decoder on
words given by their opcode and funct (R73). -/

namespace Sys2Proof.Laws

theorem toNat_append {m n : Nat} (a : BitVec m) (b : BitVec n) : (a ++ b).toNat = a.toNat * 2 ^ n + b.toNat := by
  rw [BitVec.toNat_append, Nat.shiftLeft_eq, Nat.mul_comm, ← Nat.two_pow_add_eq_or_of_lt b.isLt]

theorem toNat_packR (rs rt rd : RegNum) (shamt : Shamt) (funct : BitVec 6) :
    (packR rs rt rd shamt funct).toNat =
      rs.toNat * 2 ^ 21 + rt.toNat * 2 ^ 16 + rd.toNat * 2 ^ 11 + shamt.toNat * 2 ^ 6 + funct.toNat := by
  have h : packR rs rt rd shamt funct = (0#6 ++ rs ++ rt ++ rd ++ shamt ++ funct : BitVec (6 + 5 + 5 + 5 + 5 + 6)) := rfl
  have h' : (packR rs rt rd shamt funct).toNat =
      (0#6 ++ rs ++ rt ++ rd ++ shamt ++ funct : BitVec (6 + 5 + 5 + 5 + 5 + 6)).toNat := by rw [h]
  rw [h', toNat_append, toNat_append, toNat_append, toNat_append, toNat_append, BitVec.toNat_ofNat]
  omega

theorem toNat_packI (opcode : BitVec 6) (rs rt : RegNum) (imm : Imm16) :
    (packI opcode rs rt imm).toNat = opcode.toNat * 2 ^ 26 + rs.toNat * 2 ^ 21 + rt.toNat * 2 ^ 16 + imm.toNat := by
  have h : packI opcode rs rt imm = (opcode ++ rs ++ rt ++ imm : BitVec (6 + 5 + 5 + 16)) := rfl
  have h' : (packI opcode rs rt imm).toNat = (opcode ++ rs ++ rt ++ imm : BitVec (6 + 5 + 5 + 16)).toNat := by rw [h]
  rw [h', toNat_append, toNat_append, toNat_append]
  omega

theorem toNat_packJ (opcode : BitVec 6) (target : Target26) :
    (packJ opcode target).toNat = opcode.toNat * 2 ^ 26 + target.toNat := by
  have h : packJ opcode target = (opcode ++ target : BitVec (6 + 26)) := rfl
  have h' : (packJ opcode target).toNat = (opcode ++ target : BitVec (6 + 26)).toNat := by rw [h]
  rw [h', toNat_append]

/-- The fields the Decoder cuts, as numbers (R68). -/
theorem toNat_extract {n : Nat} (w : Word) (k : Nat) : (w.extractLsb' k n).toNat = w.toNat / 2 ^ k % 2 ^ n := by
  rw [BitVec.extractLsb'_toNat, Nat.shiftRight_eq_div_pow]

theorem cutFields_packR (rs rt rd : RegNum) (shamt : Shamt) (funct : BitVec 6) :
    (cutFields (packR rs rt rd shamt funct)).opcode = 0#6 ∧ (cutFields (packR rs rt rd shamt funct)).rs = rs ∧
    (cutFields (packR rs rt rd shamt funct)).rt = rt ∧ (cutFields (packR rs rt rd shamt funct)).rd = rd ∧
    (cutFields (packR rs rt rd shamt funct)).shamt = shamt ∧ (cutFields (packR rs rt rd shamt funct)).funct = funct := by
  have h1 := rs.isLt; have h2 := rt.isLt; have h3 := rd.isLt; have h4 := shamt.isLt; have h5 := funct.isLt
  refine ⟨?_, ?_, ?_, ?_, ?_, ?_⟩ <;> apply BitVec.eq_of_toNat_eq <;>
    simp only [cutFields, toNat_extract, toNat_packR, BitVec.toNat_ofNat] <;> omega

theorem cutFields_packI (opcode : BitVec 6) (rs rt : RegNum) (imm : Imm16) :
    (cutFields (packI opcode rs rt imm)).opcode = opcode ∧ (cutFields (packI opcode rs rt imm)).rs = rs ∧
    (cutFields (packI opcode rs rt imm)).rt = rt ∧ (cutFields (packI opcode rs rt imm)).imm16 = imm := by
  have h1 := rs.isLt; have h2 := rt.isLt; have h3 := imm.isLt; have h4 := opcode.isLt
  refine ⟨?_, ?_, ?_, ?_⟩ <;> apply BitVec.eq_of_toNat_eq <;>
    simp only [cutFields, toNat_extract, toNat_packI] <;> omega

theorem cutFields_packJ (opcode : BitVec 6) (target : Target26) :
    (cutFields (packJ opcode target)).opcode = opcode ∧ (cutFields (packJ opcode target)).target26 = target := by
  have h1 := target.isLt; have h2 := opcode.isLt
  refine ⟨?_, ?_⟩ <;> apply BitVec.eq_of_toNat_eq <;>
    simp only [cutFields, toNat_extract, toNat_packJ] <;> omega

/-- Dispatch on funct when the opcode is 0 (R73). -/
theorem decodeWord_register {w : Word} (h : (cutFields w).opcode = 0#6) :
    decodeWord w = selectRegister (cutFields w) := by simp [decodeWord, selectInstr, h]

/-- Dispatch on opcode otherwise (R73). -/
theorem decodeWord_primary {w : Word} (h : (cutFields w).opcode ≠ 0#6) :
    decodeWord w = selectPrimary (cutFields w) := by simp [decodeWord, selectInstr, h]

/-- Cutting a word into bytes and putting them together gives the word (20_memory.md R55). -/
theorem wordOfBytes_bytes (w : Word) :
    wordOfBytes (w.extractLsb' 0 8) (w.extractLsb' 8 8) (w.extractLsb' 16 8) (w.extractLsb' 24 8) = w := by
  apply BitVec.eq_of_toNat_eq
  have e : ∀ b0 b1 b2 b3 : Byte, (wordOfBytes b0 b1 b2 b3).toNat = (b3 ++ b2 ++ b1 ++ b0 : BitVec (8 + 8 + 8 + 8)).toNat :=
    fun _ _ _ _ => rfl
  rw [e, toNat_append, toNat_append, toNat_append]
  simp only [toNat_extract]
  have := w.isLt
  omega

/-- Decoding the four bytes of a word is decoding the word, whatever follows (R69). -/
theorem decodeBytes_bytesOfWord (w : Word) (rest : List Byte) :
    decodeBytes (bytesOfWord w ++ rest) =
      match decodeWord w with
      | .ok i => .ok (i, rest)
      | .error e => .error e := by
  cases h : decodeWord w <;> simp [bytesOfWord, decodeBytes, wordOfBytes_bytes, h]

end Sys2Proof.Laws
end

