-- ==== Sys2Proof/Laws/State.lean ====
section
/-! SUPPORT. One lemma for each field after each update of the machine's state, and the lemmas of the register file. -/

namespace Sys2Proof.Machine

variable (s : State)

/-! ### The register file (10_state.md R17, R18) -/

theorem RegFile.get_set (f : RegFile) (r q : RegNum) (v : Word) :
    RegFile.get (RegFile.set f r v) q = if r = q then v else RegFile.get f q := by
  simp only [RegFile.get, RegFile.set, Vector.getElem_set, BitVec.toNat_inj]

@[simp] theorem RegFile.get_set_self (f : RegFile) (r : RegNum) (v : Word) :
    RegFile.get (RegFile.set f r v) r = v := by simp [RegFile.get_set]

theorem RegFile.get_set_of_ne (f : RegFile) (r q : RegNum) (v : Word) (h : q ≠ r) :
    RegFile.get (RegFile.set f r v) q = RegFile.get f q := by simp [RegFile.get_set, h.symm]

theorem RegFile.get_replicate_zero (r : RegNum) : RegFile.get (Vector.replicate 32 0#32) r = 0#32 := by
  simp [RegFile.get]

/-- Register 0 is ordinary storage: every register is read as it is stored (R18). -/
@[simp] theorem RegFile.read_ordinary (f : RegFile) (r : RegNum) : RegFile.read hardwireR0 f r = RegFile.get f r := by
  simp [RegFile.read, hardwireR0]

@[simp] theorem RegFile.write_ordinary (f : RegFile) (r : RegNum) (v : Word) :
    RegFile.write hardwireR0 f r v = RegFile.set f r v := by
  simp [RegFile.write, hardwireR0]

@[simp] theorem State.x_eq (r : RegNum) : s.x r = RegFile.get s.cur.regs r := by simp [State.x]

@[simp] theorem State.pcPlus4_eq : s.pcPlus4 = s.cur.pc + 4#32 := rfl

/-! ### One lemma per field per update -/

@[simp] theorem State.setX_config (r : RegNum) (v : Word) : (s.setX r v).config = s.config := rfl

@[simp] theorem State.setX_cur (r : RegNum) (v : Word) : (s.setX r v).cur = s.cur := rfl

@[simp] theorem State.setX_runFlag (r : RegNum) (v : Word) : (s.setX r v).runFlag = s.runFlag := rfl

@[simp] theorem State.setX_stop (r : RegNum) (v : Word) : (s.setX r v).stop = s.stop := rfl

@[simp] theorem State.setX_count (r : RegNum) (v : Word) : (s.setX r v).count = s.count := rfl

@[simp] theorem State.setX_mem (r : RegNum) (v : Word) : (s.setX r v).mem = s.mem := rfl

@[simp] theorem State.setX_word (r : RegNum) (v : Word) : (s.setX r v).word = s.word := rfl

@[simp] theorem State.setX_next_pc (r : RegNum) (v : Word) : (s.setX r v).next.pc = s.next.pc := rfl

@[simp] theorem State.setX_next_regs (r : RegNum) (v : Word) : (s.setX r v).next.regs = RegFile.set s.next.regs r v := by simp [State.setX]

@[simp] theorem State.setX_next_hi (r : RegNum) (v : Word) : (s.setX r v).next.hi = s.next.hi := rfl

@[simp] theorem State.setX_next_lo (r : RegNum) (v : Word) : (s.setX r v).next.lo = s.next.lo := rfl

@[simp] theorem State.setPc_config (v : Word) : (s.setPc v).config = s.config := rfl

@[simp] theorem State.setPc_cur (v : Word) : (s.setPc v).cur = s.cur := rfl

@[simp] theorem State.setPc_runFlag (v : Word) : (s.setPc v).runFlag = s.runFlag := rfl

@[simp] theorem State.setPc_stop (v : Word) : (s.setPc v).stop = s.stop := rfl

@[simp] theorem State.setPc_count (v : Word) : (s.setPc v).count = s.count := rfl

@[simp] theorem State.setPc_mem (v : Word) : (s.setPc v).mem = s.mem := rfl

@[simp] theorem State.setPc_word (v : Word) : (s.setPc v).word = s.word := rfl

@[simp] theorem State.setPc_next_pc (v : Word) : (s.setPc v).next.pc = v := rfl

@[simp] theorem State.setPc_next_regs (v : Word) : (s.setPc v).next.regs = s.next.regs := rfl

@[simp] theorem State.setPc_next_hi (v : Word) : (s.setPc v).next.hi = s.next.hi := rfl

@[simp] theorem State.setPc_next_lo (v : Word) : (s.setPc v).next.lo = s.next.lo := rfl

@[simp] theorem State.setHi_config (v : Word) : (s.setHi v).config = s.config := rfl

@[simp] theorem State.setHi_cur (v : Word) : (s.setHi v).cur = s.cur := rfl

@[simp] theorem State.setHi_runFlag (v : Word) : (s.setHi v).runFlag = s.runFlag := rfl

@[simp] theorem State.setHi_stop (v : Word) : (s.setHi v).stop = s.stop := rfl

@[simp] theorem State.setHi_count (v : Word) : (s.setHi v).count = s.count := rfl

@[simp] theorem State.setHi_mem (v : Word) : (s.setHi v).mem = s.mem := rfl

@[simp] theorem State.setHi_word (v : Word) : (s.setHi v).word = s.word := rfl

@[simp] theorem State.setHi_next_pc (v : Word) : (s.setHi v).next.pc = s.next.pc := rfl

@[simp] theorem State.setHi_next_regs (v : Word) : (s.setHi v).next.regs = s.next.regs := rfl

@[simp] theorem State.setHi_next_hi (v : Word) : (s.setHi v).next.hi = v := rfl

@[simp] theorem State.setHi_next_lo (v : Word) : (s.setHi v).next.lo = s.next.lo := rfl

@[simp] theorem State.setLo_config (v : Word) : (s.setLo v).config = s.config := rfl

@[simp] theorem State.setLo_cur (v : Word) : (s.setLo v).cur = s.cur := rfl

@[simp] theorem State.setLo_runFlag (v : Word) : (s.setLo v).runFlag = s.runFlag := rfl

@[simp] theorem State.setLo_stop (v : Word) : (s.setLo v).stop = s.stop := rfl

@[simp] theorem State.setLo_count (v : Word) : (s.setLo v).count = s.count := rfl

@[simp] theorem State.setLo_mem (v : Word) : (s.setLo v).mem = s.mem := rfl

@[simp] theorem State.setLo_word (v : Word) : (s.setLo v).word = s.word := rfl

@[simp] theorem State.setLo_next_pc (v : Word) : (s.setLo v).next.pc = s.next.pc := rfl

@[simp] theorem State.setLo_next_regs (v : Word) : (s.setLo v).next.regs = s.next.regs := rfl

@[simp] theorem State.setLo_next_hi (v : Word) : (s.setLo v).next.hi = s.next.hi := rfl

@[simp] theorem State.setLo_next_lo (v : Word) : (s.setLo v).next.lo = v := rfl

@[simp] theorem State.store_config (a : Word) (n : Nat) (v : Word) : (s.store a n v).config = s.config := rfl

@[simp] theorem State.store_cur (a : Word) (n : Nat) (v : Word) : (s.store a n v).cur = s.cur := rfl

@[simp] theorem State.store_runFlag (a : Word) (n : Nat) (v : Word) : (s.store a n v).runFlag = s.runFlag := rfl

@[simp] theorem State.store_stop (a : Word) (n : Nat) (v : Word) : (s.store a n v).stop = s.stop := rfl

@[simp] theorem State.store_count (a : Word) (n : Nat) (v : Word) : (s.store a n v).count = s.count := rfl

@[simp] theorem State.store_mem (a : Word) (n : Nat) (v : Word) : (s.store a n v).mem = memWrite s.config.regions s.mem a n v := rfl

@[simp] theorem State.store_word (a : Word) (n : Nat) (v : Word) : (s.store a n v).word = s.word := rfl

@[simp] theorem State.store_next_pc (a : Word) (n : Nat) (v : Word) : (s.store a n v).next.pc = s.next.pc := rfl

@[simp] theorem State.store_next_regs (a : Word) (n : Nat) (v : Word) : (s.store a n v).next.regs = s.next.regs := rfl

@[simp] theorem State.store_next_hi (a : Word) (n : Nat) (v : Word) : (s.store a n v).next.hi = s.next.hi := rfl

@[simp] theorem State.store_next_lo (a : Word) (n : Nat) (v : Word) : (s.store a n v).next.lo = s.next.lo := rfl

@[simp] theorem State.store_next (a : Word) (n : Nat) (v : Word) : (s.store a n v).next = s.next := rfl

@[simp] theorem State.enterStop_config (c : StopReason) : (s.enterStop c).config = s.config := rfl

@[simp] theorem State.enterStop_cur (c : StopReason) : (s.enterStop c).cur = s.cur := rfl

@[simp] theorem State.enterStop_runFlag (c : StopReason) : (s.enterStop c).runFlag = false := rfl

@[simp] theorem State.enterStop_stop (c : StopReason) : (s.enterStop c).stop = { reason := c, pc := s.cur.pc, word := s.word } := rfl

@[simp] theorem State.enterStop_count (c : StopReason) : (s.enterStop c).count = s.count := rfl

@[simp] theorem State.enterStop_mem (c : StopReason) : (s.enterStop c).mem = s.mem := rfl

@[simp] theorem State.enterStop_word (c : StopReason) : (s.enterStop c).word = s.word := rfl

@[simp] theorem State.enterStop_next_pc (c : StopReason) : (s.enterStop c).next.pc = s.next.pc := rfl

@[simp] theorem State.enterStop_next_regs (c : StopReason) : (s.enterStop c).next.regs = s.next.regs := rfl

@[simp] theorem State.enterStop_next_hi (c : StopReason) : (s.enterStop c).next.hi = s.next.hi := rfl

@[simp] theorem State.enterStop_next_lo (c : StopReason) : (s.enterStop c).next.lo = s.next.lo := rfl

@[simp] theorem State.enterStop_next (c : StopReason) : (s.enterStop c).next = s.next := rfl

@[simp] theorem State.beginWith_config (w : Word) : (s.beginWith w).config = s.config := rfl

@[simp] theorem State.beginWith_cur (w : Word) : (s.beginWith w).cur = s.cur := rfl

@[simp] theorem State.beginWith_runFlag (w : Word) : (s.beginWith w).runFlag = s.runFlag := rfl

@[simp] theorem State.beginWith_stop (w : Word) : (s.beginWith w).stop = s.stop := rfl

@[simp] theorem State.beginWith_count (w : Word) : (s.beginWith w).count = s.count := rfl

@[simp] theorem State.beginWith_mem (w : Word) : (s.beginWith w).mem = s.mem := rfl

@[simp] theorem State.beginWith_word (w : Word) : (s.beginWith w).word = w := rfl

@[simp] theorem State.beginWith_next_pc (w : Word) : (s.beginWith w).next.pc = s.cur.pc + 4#32 := rfl

@[simp] theorem State.beginWith_next_regs (w : Word) : (s.beginWith w).next.regs = s.next.regs := rfl

@[simp] theorem State.beginWith_next_hi (w : Word) : (s.beginWith w).next.hi = s.next.hi := rfl

@[simp] theorem State.beginWith_next_lo (w : Word) : (s.beginWith w).next.lo = s.next.lo := rfl

@[simp] theorem State.commit_config : s.commit.config = s.config := rfl

@[simp] theorem State.commit_cur : s.commit.cur = s.next := rfl

@[simp] theorem State.commit_runFlag : s.commit.runFlag = s.runFlag := rfl

@[simp] theorem State.commit_stop : s.commit.stop = s.stop := rfl

@[simp] theorem State.commit_count : s.commit.count = s.count + 1 := rfl

@[simp] theorem State.commit_mem : s.commit.mem = s.mem := rfl

@[simp] theorem State.commit_word : s.commit.word = 0#32 := rfl

@[simp] theorem State.commit_next_pc : s.commit.next.pc = s.next.pc := rfl

@[simp] theorem State.commit_next_regs : s.commit.next.regs = s.next.regs := rfl

@[simp] theorem State.commit_next_hi : s.commit.next.hi = s.next.hi := rfl

@[simp] theorem State.commit_next_lo : s.commit.next.lo = s.next.lo := rfl

@[simp] theorem State.commit_next : s.commit.next = s.next := rfl

/-! ### Raising a condition (60_exceptions.md R137 to R139) -/

theorem State.raise_illegal :
    s.raise .illegalInstruction = (s.setPc s.cur.pc).enterStop .illegalInstruction := rfl

theorem State.raise_divideByZero :
    s.raise .divideByZero = ((s.setHi 0#32).setLo 0#32).enterStop .divideByZero := rfl

theorem State.begin_eq : s.begin = s.beginWith s.fetch := rfl

/-- No operation of the Executor touches what a region lookup reads. -/
@[simp] theorem State.setX_load (r : RegNum) (v : Word) (a : Word) (n : Nat) : (s.setX r v).load a n = s.load a n := rfl

@[simp] theorem State.setPc_load (v a : Word) (n : Nat) : (s.setPc v).load a n = s.load a n := rfl

@[simp] theorem State.setHi_load (v a : Word) (n : Nat) : (s.setHi v).load a n = s.load a n := rfl

@[simp] theorem State.setLo_load (v a : Word) (n : Nat) : (s.setLo v).load a n = s.load a n := rfl

@[simp] theorem State.enterStop_load (c : StopReason) (a : Word) (n : Nat) : (s.enterStop c).load a n = s.load a n := rfl

@[simp] theorem State.beginWith_load (w a : Word) (n : Nat) : (s.beginWith w).load a n = s.load a n := rfl

@[simp] theorem State.commit_load (a : Word) (n : Nat) : s.commit.load a n = s.load a n := rfl

end Sys2Proof.Machine
end

