-- ==== Sys2Proof/Laws/Memory.lean ====
section
/-! SUPPORT. What each memory operation does, said once: reads after writes, the canonical form, and that bytes are listed
only inside regions (20_memory.md R43, R50 to R54). -/

namespace Sys2Proof.Machine

/-! ### One byte -/

theorem Memory.get_eq_fill_of_lt {m : Memory} {a : Nat} (h : ∀ c ∈ m, a < c.1) : m.get a = Memory.fill := by
  induction m with
  | nil => rfl
  | cons c rest ih =>
    have hc : a < c.1 := h c (by simp)
    simp only [Memory.get, if_neg (Nat.ne_of_gt hc)]
    exact ih fun d hd => h d (by simp [hd])

/-- Read after write, on memory in canonical form. -/
theorem Memory.get_set {m : Memory} (hm : m.Pairwise fun c d => c.1 < d.1) (a b : Nat) (v : Byte) :
    (m.set a v).get b = if b = a then v else m.get b := by
  induction m with
  | nil =>
    simp only [Memory.set]
    split <;> simp only [Memory.get] <;> grind
  | cons c rest ih =>
    obtain ⟨hlt, hrest⟩ := List.pairwise_cons.mp hm
    have ih' := ih hrest
    have hfill : ∀ k, k ≤ c.1 → Memory.get rest k = Memory.fill := fun k hk =>
      Memory.get_eq_fill_of_lt fun d hd => lt_of_le_of_lt hk (hlt d hd)
    simp only [Memory.set]
    split
    · split <;> simp only [Memory.get] <;> grind
    · split
      · split <;> simp only [Memory.get] <;> grind
      · simp only [Memory.get, ih']; grind

theorem Memory.mem_set {m : Memory} {a : Nat} {v : Byte} {c : Host.Cell} (hc : c ∈ m.set a v) :
    c ∈ m ∨ c = (a, v) ∧ v ≠ Memory.fill := by
  induction m with
  | nil => simp only [Memory.set] at hc; grind
  | cons d rest ih => simp only [Memory.set] at hc; grind

/-- The canonical form is kept by a write. -/
theorem Memory.wf_set {m : Memory} (hm : Memory.wf m) (a : Nat) (v : Byte) : Memory.wf (m.set a v) := by
  refine ⟨?_, fun c hc => ?_⟩
  · obtain ⟨hp, -⟩ := hm
    induction m with
    | nil => simp only [Memory.set]; split <;> simp
    | cons d rest ih =>
      obtain ⟨hlt, hrest⟩ := List.pairwise_cons.mp hp
      simp only [Memory.set]
      have htail : ∀ c ∈ Memory.set rest a v, d.1 < a → d.1 < c.1 := fun c hc hda => by
        rcases Memory.mem_set hc with h | ⟨rfl, -⟩
        · exact hlt c h
        · exact hda
      split
      · split
        · exact hp
        · refine List.pairwise_cons.mpr ⟨fun c hc => ?_, hp⟩
          rcases List.mem_cons.mp hc with rfl | h
          · assumption
          · exact lt_trans ‹_› (hlt c h)
      · split
        · split
          · exact hrest
          · refine List.pairwise_cons.mpr ⟨fun c hc => ?_, hrest⟩
            have := hlt c hc; simp_all
        · exact List.pairwise_cons.mpr ⟨fun c hc => htail c hc (by omega), ih hrest⟩
  · rcases Memory.mem_set hc with h | ⟨rfl, h⟩
    · exact hm.2 c h
    · exact h

theorem Memory.wf_nil : Memory.wf [] := by simp [Memory.wf]

/-! ### Runs of bytes -/

theorem scatter_wf {limit n : Nat} {m : Memory} (hm : Memory.wf m) (a : Nat) (v : Word) :
    Memory.wf (scatter limit m a n v) := by
  induction n generalizing m a v with
  | zero => exact hm
  | succ n ih =>
    simp only [scatter]
    split
    · exact ih (Memory.wf_set hm _ _) _ _
    · exact ih hm _ _

theorem memWrite_wf {rs : List Region} {m : Memory} (hm : Memory.wf m) (a : Word) (n : Nat) (v : Word) :
    Memory.wf (memWrite rs m a n v) := by
  unfold memWrite
  split
  · exact hm
  · exact scatter_wf hm _ _

theorem loadWords_wf {rs : List Region} {m : Memory} (hm : Memory.wf m) (a : Word) (ws : List Word) :
    Memory.wf (loadWords rs m a ws) := by
  induction ws generalizing m a with
  | nil => exact hm
  | cons w ws ih => exact ih (memWrite_wf hm _ _ _) _

theorem resetFrom_mem_wf (c : Config) : Memory.wf (State.resetFrom c).mem := loadWords_wf Memory.wf_nil _ _

theorem reset_mem_wf : Memory.wf State.reset.mem := Memory.wf_nil

/-- Byte `k` of a little-endian word (R55). -/
theorem byte_of_shifted (v : Word) (k : Nat) : (v >>> (8 * k)).setWidth 8 = v.extractLsb' (8 * k) 8 := by
  apply BitVec.eq_of_getLsbD_eq
  intro i hi
  simp [hi]

/-- What a run of stored bytes reads as afterwards: byte `a + k` is byte `k` of the word where it lies at or below the
limit, and every other byte is as before (R51, R54). -/
theorem scatter_get {limit n : Nat} {m : Memory} (hm : Memory.wf m) (a b : Nat) (v : Word) :
    (scatter limit m a n v).get b =
      if a ≤ b ∧ b < a + n ∧ b ≤ limit then v.extractLsb' (8 * (b - a)) 8 else m.get b := by
  induction n generalizing m a v with
  | zero => simp only [scatter]; rw [if_neg (by omega)]
  | succ n ih =>
    have hstep : ∀ m' : Memory, Memory.wf m' →
        (scatter limit m' (a + 1) n (v >>> 8)).get b =
          if a + 1 ≤ b ∧ b < a + (n + 1) ∧ b ≤ limit then v.extractLsb' (8 * (b - a)) 8 else m'.get b := by
      intro m' hm'
      rw [ih hm']
      by_cases h : a + 1 ≤ b ∧ b < a + 1 + n ∧ b ≤ limit
      · rw [if_pos h, if_pos (by omega), ← byte_of_shifted, ← byte_of_shifted, ← BitVec.shiftRight_add]
        congr 2; omega
      · rw [if_neg h, if_neg (by omega)]
    simp only [scatter]
    split
    · rename_i hal
      rw [hstep _ (Memory.wf_set hm _ _), Memory.get_set hm.1]
      by_cases hba : b = a
      · subst hba
        rw [if_neg (by omega), if_pos rfl, if_pos (by omega), Nat.sub_self, ← byte_of_shifted]
        simp
      · rw [if_neg hba]
        by_cases h : a + 1 ≤ b ∧ b < a + (n + 1) ∧ b ≤ limit
        · rw [if_pos h, if_pos (by omega)]
        · rw [if_neg h, if_neg (by omega)]
    · rw [hstep _ hm]
      by_cases h : a + 1 ≤ b ∧ b < a + (n + 1) ∧ b ≤ limit
      · rw [if_pos h, if_pos (by omega)]
      · rw [if_neg h, if_neg (by omega)]

/-- Byte `k` of a gathered word (R50, R54). -/
theorem gather_byte (m : Memory) (limit : Nat) (a n k : Nat) :
    (gather m limit a n).extractLsb' (8 * k) 8 =
      if k < n ∧ k < 4 ∧ a + k ≤ limit then m.get (a + k) else 0#8 := by
  induction n generalizing a k with
  | zero => simp [gather]
  | succ n ih =>
    apply BitVec.eq_of_getLsbD_eq
    intro i hi
    rcases k with _ | k
    · simp only [gather]
      by_cases hal : a ≤ limit
      · simp [hal, hi, show i < 32 by omega]
      · simp [hal, hi, show i < 32 by omega]
    · have hk := congrArg (BitVec.getLsbD · i) (ih (a + 1) k)
      simp only [BitVec.getLsbD_extractLsb', hi, decide_true, Bool.true_and] at hk
      have h8 : ∀ b : Byte, b.getLsbD (8 * (k + 1) + i) = false := fun b => BitVec.getLsbD_of_ge _ _ (by omega)
      simp only [gather, BitVec.getLsbD_extractLsb', hi, decide_true, Bool.true_and, BitVec.getLsbD_or,
        BitVec.getLsbD_shiftLeft]
      rw [show 8 * (k + 1) + i - 8 = 8 * k + i by omega, hk]
      have hlow : (if a ≤ limit then BitVec.setWidth 32 (m.get a) else 0#32).getLsbD (8 * (k + 1) + i) = false := by
        split <;> simp [h8]
      rw [hlow, Bool.false_or]
      by_cases hk4 : k + 1 < 4
      · have e : a + 1 + k = a + (k + 1) := by omega
        by_cases hc : k < n ∧ k < 4 ∧ a + 1 + k ≤ limit
        · rw [if_pos hc, if_pos (by omega), e]
          simp [show 8 * (k + 1) + i < 32 by omega, show 8 ≤ 8 * (k + 1) + i by omega]
        · rw [if_neg hc, if_neg (by omega)]; simp
      · rw [if_neg (by omega : ¬(k + 1 < n + 1 ∧ k + 1 < 4 ∧ a + (k + 1) ≤ limit))]
        simp [show ¬(8 * (k + 1) + i < 32) by omega]

/-! ### Regions -/

theorem regionOf_mem {rs : List Region} {a : Word} {r : Region} (h : regionOf rs a = some r) :
    r ∈ rs ∧ r.base.toNat ≤ a.toNat ∧ a.toNat ≤ r.limit.toNat := by
  have hs := List.find?_some h
  simp only [Region.holds, Bool.and_eq_true, decide_eq_true_eq, BitVec.le_def] at hs
  exact ⟨List.mem_of_find?_eq_some h, hs⟩

theorem regionOf_none {rs : List Region} {a : Word} :
    regionOf rs a = none ↔ ∀ r ∈ rs, ¬(r.base.toNat ≤ a.toNat ∧ a.toNat ≤ r.limit.toNat) := by
  simp [regionOf, List.find?_eq_none, Region.holds, BitVec.le_def]

/-- An unmapped read gives 0 (R52). -/
theorem memRead_unmapped {rs : List Region} {a : Word} (h : regionOf rs a = none) (m : Memory) (n : Nat) :
    memRead rs m a n = 0#32 := by simp [memRead, h]

/-- An unmapped write is dropped (R53). -/
theorem memWrite_unmapped {rs : List Region} {a : Word} (h : regionOf rs a = none) (m : Memory) (n : Nat) (v : Word) :
    memWrite rs m a n v = m := by simp [memWrite, h]

theorem memRead_mapped {rs : List Region} {a : Word} {r : Region} (h : regionOf rs a = some r) (m : Memory) (n : Nat) :
    memRead rs m a n = gather m r.limit.toNat a.toNat n := by simp [memRead, h]

theorem memWrite_mapped {rs : List Region} {a : Word} {r : Region} (h : regionOf rs a = some r) (m : Memory) (n : Nat)
    (v : Word) : memWrite rs m a n v = scatter r.limit.toNat m a.toNat n v := by simp [memWrite, h]

/-- One byte as the machine reads it: 0 where no region holds the address, else the stored byte. -/
theorem State.readByte_eq (s : State) (a : Word) :
    s.readByte a = match regionOf s.config.regions a with | none => 0#8 | some _ => s.mem.get a.toNat := by
  unfold State.readByte State.load
  cases h : regionOf s.config.regions a with
  | none => simp [memRead_unmapped h]
  | some r =>
    have hr := regionOf_mem h
    rw [memRead_mapped h]
    have hb := gather_byte s.mem r.limit.toNat a.toNat 1 0
    rw [if_pos ⟨by omega, by omega, by simpa using hr.2.2⟩] at hb
    simpa [BitVec.extractLsb'] using hb

/-- After `MemWrite(a, n, v)`: the bytes stored and every other byte (R51, R53, R54). -/
theorem memWrite_get {rs : List Region} {m : Memory} (hm : Memory.wf m) (a : Word) (n b : Nat) (v : Word) :
    (memWrite rs m a n v).get b =
      match regionOf rs a with
      | none => m.get b
      | some r => if a.toNat ≤ b ∧ b < a.toNat + n ∧ b ≤ r.limit.toNat
          then v.extractLsb' (8 * (b - a.toNat)) 8 else m.get b := by
  cases h : regionOf rs a with
  | none => simp [memWrite_unmapped h]
  | some r => rw [memWrite_mapped h, scatter_get hm]

/-- Loading a program changes no byte but the program's (R158). -/
theorem loadWords_get_other {rs : List Region} {m : Memory} (hm : Memory.wf m) (a b : Word) (ws : List Word)
    (h : ∀ i k : Nat, i < ws.length → k < 4 → b ≠ a + BitVec.ofNat 32 (4 * i + k)) :
    (loadWords rs m a ws).get b.toNat = m.get b.toNat := by
  induction ws generalizing m a with
  | nil => rfl
  | cons w ws ih =>
    simp only [loadWords]
    rw [ih (memWrite_wf hm _ _ _) (a + 4#32), memWrite_get hm]
    · cases regionOf rs a with
      | none => rfl
      | some r =>
        simp only
        rw [if_neg]
        rintro ⟨h1, h2, -⟩
        refine h 0 (b.toNat - a.toNat) (by simp) (by omega) (BitVec.eq_of_toNat_eq ?_)
        simp only [BitVec.toNat_add, BitVec.toNat_ofNat]
        have := a.isLt; have := b.isLt; omega
    · intro i k hi hk e
      refine h (i + 1) k (by simpa using hi) hk ?_
      rw [e]
      apply BitVec.eq_of_toNat_eq
      simp only [BitVec.toNat_add, BitVec.toNat_ofNat]; omega

end Sys2Proof.Machine
end

