-- ==== Sys2Proof/Laws/PerInstr.lean ====
section
/-! SUPPORT. The statements made for each instruction by name: what its encoded word says to the two-level dispatch of
30_encoding.md R73. -/

namespace Sys2Proof.Laws.Encoding

/-- The opcode of an instruction's row, and its funct when the opcode is 0 (R74, R75). -/
def row : Instr → BitVec 6 × Option (BitVec 6)
  | .sll .. => (0x00#6, some 0x00#6)
  | .srl .. => (0x00#6, some 0x02#6)
  | .sra .. => (0x00#6, some 0x03#6)
  | .jr .. => (0x00#6, some 0x08#6)
  | .jalr .. => (0x00#6, some 0x09#6)
  | .syscall => (0x00#6, some 0x0C#6)
  | .mfhi .. => (0x00#6, some 0x10#6)
  | .mthi .. => (0x00#6, some 0x11#6)
  | .mflo .. => (0x00#6, some 0x12#6)
  | .mtlo .. => (0x00#6, some 0x13#6)
  | .mult .. => (0x00#6, some 0x18#6)
  | .multu .. => (0x00#6, some 0x19#6)
  | .div .. => (0x00#6, some 0x1A#6)
  | .divu .. => (0x00#6, some 0x1B#6)
  | .add .. => (0x00#6, some 0x20#6)
  | .addu .. => (0x00#6, some 0x21#6)
  | .sub .. => (0x00#6, some 0x22#6)
  | .subu .. => (0x00#6, some 0x23#6)
  | .and .. => (0x00#6, some 0x24#6)
  | .or .. => (0x00#6, some 0x25#6)
  | .xor .. => (0x00#6, some 0x26#6)
  | .nor .. => (0x00#6, some 0x27#6)
  | .slt .. => (0x00#6, some 0x2A#6)
  | .j .. => (0x02#6, none)
  | .jal .. => (0x03#6, none)
  | .beq .. => (0x04#6, none)
  | .bne .. => (0x05#6, none)
  | .blez .. => (0x06#6, none)
  | .bgtz .. => (0x07#6, none)
  | .addi .. => (0x08#6, none)
  | .addiu .. => (0x09#6, none)
  | .slti .. => (0x0A#6, none)
  | .andi .. => (0x0C#6, none)
  | .ori .. => (0x0D#6, none)
  | .xori .. => (0x0E#6, none)
  | .lui .. => (0x0F#6, none)
  | .lb .. => (0x20#6, none)
  | .lh .. => (0x21#6, none)
  | .lw .. => (0x23#6, none)
  | .sb .. => (0x28#6, none)
  | .sh .. => (0x29#6, none)
  | .sw .. => (0x2B#6, none)

/-- The encoded word has its row's opcode, and its row's funct when the opcode is 0. -/
def Statement (i : Instr) : Prop :=
  (cutFields (encode i)).opcode = (row i).1 ∧ ∀ f, (row i).2 = some f → (cutFields (encode i)).funct = f

theorem sll (rd rt : RegNum) (shamt : Shamt) : Statement (.sll rd rt shamt) :=
  ⟨(cutFields_packR _ _ _ _ _).1, fun _ h => Option.some.inj h ▸ (cutFields_packR _ _ _ _ _).2.2.2.2.2⟩

theorem srl (rd rt : RegNum) (shamt : Shamt) : Statement (.srl rd rt shamt) :=
  ⟨(cutFields_packR _ _ _ _ _).1, fun _ h => Option.some.inj h ▸ (cutFields_packR _ _ _ _ _).2.2.2.2.2⟩

theorem sra (rd rt : RegNum) (shamt : Shamt) : Statement (.sra rd rt shamt) :=
  ⟨(cutFields_packR _ _ _ _ _).1, fun _ h => Option.some.inj h ▸ (cutFields_packR _ _ _ _ _).2.2.2.2.2⟩

theorem jr (rs : RegNum) : Statement (.jr rs) :=
  ⟨(cutFields_packR _ _ _ _ _).1, fun _ h => Option.some.inj h ▸ (cutFields_packR _ _ _ _ _).2.2.2.2.2⟩

theorem jalr (rd rs : RegNum) : Statement (.jalr rd rs) :=
  ⟨(cutFields_packR _ _ _ _ _).1, fun _ h => Option.some.inj h ▸ (cutFields_packR _ _ _ _ _).2.2.2.2.2⟩

theorem syscall : Statement (.syscall) :=
  ⟨(cutFields_packR _ _ _ _ _).1, fun _ h => Option.some.inj h ▸ (cutFields_packR _ _ _ _ _).2.2.2.2.2⟩

theorem mfhi (rd : RegNum) : Statement (.mfhi rd) :=
  ⟨(cutFields_packR _ _ _ _ _).1, fun _ h => Option.some.inj h ▸ (cutFields_packR _ _ _ _ _).2.2.2.2.2⟩

theorem mthi (rs : RegNum) : Statement (.mthi rs) :=
  ⟨(cutFields_packR _ _ _ _ _).1, fun _ h => Option.some.inj h ▸ (cutFields_packR _ _ _ _ _).2.2.2.2.2⟩

theorem mflo (rd : RegNum) : Statement (.mflo rd) :=
  ⟨(cutFields_packR _ _ _ _ _).1, fun _ h => Option.some.inj h ▸ (cutFields_packR _ _ _ _ _).2.2.2.2.2⟩

theorem mtlo (rs : RegNum) : Statement (.mtlo rs) :=
  ⟨(cutFields_packR _ _ _ _ _).1, fun _ h => Option.some.inj h ▸ (cutFields_packR _ _ _ _ _).2.2.2.2.2⟩

theorem mult (rs rt : RegNum) : Statement (.mult rs rt) :=
  ⟨(cutFields_packR _ _ _ _ _).1, fun _ h => Option.some.inj h ▸ (cutFields_packR _ _ _ _ _).2.2.2.2.2⟩

theorem multu (rs rt : RegNum) : Statement (.multu rs rt) :=
  ⟨(cutFields_packR _ _ _ _ _).1, fun _ h => Option.some.inj h ▸ (cutFields_packR _ _ _ _ _).2.2.2.2.2⟩

theorem div (rs rt : RegNum) : Statement (.div rs rt) :=
  ⟨(cutFields_packR _ _ _ _ _).1, fun _ h => Option.some.inj h ▸ (cutFields_packR _ _ _ _ _).2.2.2.2.2⟩

theorem divu (rs rt : RegNum) : Statement (.divu rs rt) :=
  ⟨(cutFields_packR _ _ _ _ _).1, fun _ h => Option.some.inj h ▸ (cutFields_packR _ _ _ _ _).2.2.2.2.2⟩

theorem add (rd rs rt : RegNum) : Statement (.add rd rs rt) :=
  ⟨(cutFields_packR _ _ _ _ _).1, fun _ h => Option.some.inj h ▸ (cutFields_packR _ _ _ _ _).2.2.2.2.2⟩

theorem addu (rd rs rt : RegNum) : Statement (.addu rd rs rt) :=
  ⟨(cutFields_packR _ _ _ _ _).1, fun _ h => Option.some.inj h ▸ (cutFields_packR _ _ _ _ _).2.2.2.2.2⟩

theorem sub (rd rs rt : RegNum) : Statement (.sub rd rs rt) :=
  ⟨(cutFields_packR _ _ _ _ _).1, fun _ h => Option.some.inj h ▸ (cutFields_packR _ _ _ _ _).2.2.2.2.2⟩

theorem subu (rd rs rt : RegNum) : Statement (.subu rd rs rt) :=
  ⟨(cutFields_packR _ _ _ _ _).1, fun _ h => Option.some.inj h ▸ (cutFields_packR _ _ _ _ _).2.2.2.2.2⟩

theorem and (rd rs rt : RegNum) : Statement (.and rd rs rt) :=
  ⟨(cutFields_packR _ _ _ _ _).1, fun _ h => Option.some.inj h ▸ (cutFields_packR _ _ _ _ _).2.2.2.2.2⟩

theorem or (rd rs rt : RegNum) : Statement (.or rd rs rt) :=
  ⟨(cutFields_packR _ _ _ _ _).1, fun _ h => Option.some.inj h ▸ (cutFields_packR _ _ _ _ _).2.2.2.2.2⟩

theorem xor (rd rs rt : RegNum) : Statement (.xor rd rs rt) :=
  ⟨(cutFields_packR _ _ _ _ _).1, fun _ h => Option.some.inj h ▸ (cutFields_packR _ _ _ _ _).2.2.2.2.2⟩

theorem nor (rd rs rt : RegNum) : Statement (.nor rd rs rt) :=
  ⟨(cutFields_packR _ _ _ _ _).1, fun _ h => Option.some.inj h ▸ (cutFields_packR _ _ _ _ _).2.2.2.2.2⟩

theorem slt (rd rs rt : RegNum) : Statement (.slt rd rs rt) :=
  ⟨(cutFields_packR _ _ _ _ _).1, fun _ h => Option.some.inj h ▸ (cutFields_packR _ _ _ _ _).2.2.2.2.2⟩

theorem j (target : Target26) : Statement (.j target) :=
  ⟨(cutFields_packJ _ _).1, fun _ h => nomatch h⟩

theorem jal (target : Target26) : Statement (.jal target) :=
  ⟨(cutFields_packJ _ _).1, fun _ h => nomatch h⟩

theorem beq (rs rt : RegNum) (imm : Imm16) : Statement (.beq rs rt imm) :=
  ⟨(cutFields_packI _ _ _ _).1, fun _ h => nomatch h⟩

theorem bne (rs rt : RegNum) (imm : Imm16) : Statement (.bne rs rt imm) :=
  ⟨(cutFields_packI _ _ _ _).1, fun _ h => nomatch h⟩

theorem blez (rs : RegNum) (imm : Imm16) : Statement (.blez rs imm) :=
  ⟨(cutFields_packI _ _ _ _).1, fun _ h => nomatch h⟩

theorem bgtz (rs : RegNum) (imm : Imm16) : Statement (.bgtz rs imm) :=
  ⟨(cutFields_packI _ _ _ _).1, fun _ h => nomatch h⟩

theorem addi (rt rs : RegNum) (imm : Imm16) : Statement (.addi rt rs imm) :=
  ⟨(cutFields_packI _ _ _ _).1, fun _ h => nomatch h⟩

theorem addiu (rt rs : RegNum) (imm : Imm16) : Statement (.addiu rt rs imm) :=
  ⟨(cutFields_packI _ _ _ _).1, fun _ h => nomatch h⟩

theorem slti (rt rs : RegNum) (imm : Imm16) : Statement (.slti rt rs imm) :=
  ⟨(cutFields_packI _ _ _ _).1, fun _ h => nomatch h⟩

theorem andi (rt rs : RegNum) (imm : Imm16) : Statement (.andi rt rs imm) :=
  ⟨(cutFields_packI _ _ _ _).1, fun _ h => nomatch h⟩

theorem ori (rt rs : RegNum) (imm : Imm16) : Statement (.ori rt rs imm) :=
  ⟨(cutFields_packI _ _ _ _).1, fun _ h => nomatch h⟩

theorem xori (rt rs : RegNum) (imm : Imm16) : Statement (.xori rt rs imm) :=
  ⟨(cutFields_packI _ _ _ _).1, fun _ h => nomatch h⟩

theorem lui (rt : RegNum) (imm : Imm16) : Statement (.lui rt imm) :=
  ⟨(cutFields_packI _ _ _ _).1, fun _ h => nomatch h⟩

theorem lb (rt rs : RegNum) (imm : Imm16) : Statement (.lb rt rs imm) :=
  ⟨(cutFields_packI _ _ _ _).1, fun _ h => nomatch h⟩

theorem lh (rt rs : RegNum) (imm : Imm16) : Statement (.lh rt rs imm) :=
  ⟨(cutFields_packI _ _ _ _).1, fun _ h => nomatch h⟩

theorem lw (rt rs : RegNum) (imm : Imm16) : Statement (.lw rt rs imm) :=
  ⟨(cutFields_packI _ _ _ _).1, fun _ h => nomatch h⟩

theorem sb (rt rs : RegNum) (imm : Imm16) : Statement (.sb rt rs imm) :=
  ⟨(cutFields_packI _ _ _ _).1, fun _ h => nomatch h⟩

theorem sh (rt rs : RegNum) (imm : Imm16) : Statement (.sh rt rs imm) :=
  ⟨(cutFields_packI _ _ _ _).1, fun _ h => nomatch h⟩

theorem sw (rt rs : RegNum) (imm : Imm16) : Statement (.sw rt rs imm) :=
  ⟨(cutFields_packI _ _ _ _).1, fun _ h => nomatch h⟩

end Sys2Proof.Laws.Encoding
end

