-- ==== Sys2Proof/Laws/Step.lean ====
section
/-! SUPPORT. What a step's two ends, a stop and a run do, said once, and that memory operations list bytes only inside
regions (10_state.md R35 to R37, 20_memory.md R43). -/

namespace Sys2Proof.Machine

/-! ### Memory stays inside the regions -/

theorem scatter_mapped {rs : List Region} {r : Region} (hr : r ∈ rs) {m : Memory} (hm : Memory.mapped rs m) (a n : Nat)
    (ha : r.base.toNat ≤ a) (v : Word) : Memory.mapped rs (scatter r.limit.toNat m a n v) := by
  induction n generalizing m a v with
  | zero => exact hm
  | succ n ih =>
    refine ih ?_ (a + 1) (by omega) _
    split
    · intro c hc
      rcases Memory.mem_set hc with h | ⟨rfl, -⟩
      · exact hm c h
      · exact ⟨r, hr, ha, ‹_›⟩
    · exact hm

theorem memWrite_mapped_regions {rs : List Region} {m : Memory} (hm : Memory.mapped rs m) (a : Word) (n : Nat) (v : Word) :
    Memory.mapped rs (memWrite rs m a n v) := by
  cases h : regionOf rs a with
  | none => rw [memWrite_unmapped h]; exact hm
  | some r => rw [memWrite_mapped h]; exact scatter_mapped (regionOf_mem h).1 hm _ _ (regionOf_mem h).2.1 _

theorem loadWords_mapped {rs : List Region} {m : Memory} (hm : Memory.mapped rs m) (a : Word) (ws : List Word) :
    Memory.mapped rs (loadWords rs m a ws) := by
  induction ws generalizing m a with
  | nil => exact hm
  | cons w ws ih => exact ih (memWrite_mapped_regions hm _ _ _) _

/-! ### The step -/

/-- A step of a RUNNING machine whose word decodes. -/
theorem step_of_decode {s : State} {i : Instr} (hr : s.runFlag = true) (hd : decodeWord s.fetch = .ok i) :
    step s = commitOutcome (exec i s.begin) := by simp [step, hr, execWord, hd]

/-- A step of a RUNNING machine whose word is illegal. -/
theorem step_of_illegal {s : State} {e : Reject} (hr : s.runFlag = true) (hd : decodeWord s.fetch = .error e) :
    step s = .next (s.begin.raise .illegalInstruction).commit := by
  simp [step, hr, execWord, hd, execIllegal, commitOutcome]

/-- A step while STOPPED. -/
theorem step_of_stopped {s : State} (hr : s.runFlag = false) : step s = .next s := by simp [step, hr]

/-! ### Runs -/

theorem afterStep_of_next {s t : State} (h : step s = .next t) : s.afterStep = t := by simp [State.afterStep, h]

theorem runSteps_of_stopped {s : State} (h : s.runFlag = false) (n : Nat) : runSteps n s = s := by
  cases n <;> simp [runSteps, h]

theorem runSteps_succ {s : State} (h : s.runFlag = true) (n : Nat) : runSteps (n + 1) s = runSteps n s.afterStep := by
  simp [runSteps, h]

/-- `sim` under a bound is `run` under the same bound, where the run ends (R37). -/
theorem runToCompletion_eq (n : Nat) (s : State) :
    runToCompletion n s = if (runSteps n s).runFlag then none else some (runSteps n s) := by
  induction n generalizing s with
  | zero => rfl
  | succ n ih =>
    cases h : s.runFlag
    · simp [runToCompletion, runSteps, h]
    · simp [runToCompletion, runSteps, h, ih]

end Sys2Proof.Machine
end

