-- ==== Sys2Proof/Tests/Slice0.lean ====
section
/-! SUPPORT. Tests and witnesses. The one-step vectors V<n> are those of the spec's 95_test_vectors.md; the words of the
decode tests are written field by field from 30_encoding.md R68, R74 and R75; other expected values are worked out by hand
from the rule named. The witnesses show states and operands that meet the hypotheses of the obligations, at the edges of
their ranges. -/

namespace Sys2Proof.Tests

open Sys2Proof.Machine Sys2Proof.Claims

/-! ### Well-formedness: each check refuses an ill-formed configuration -/

/-- A well-formed configuration with the last region at the top of the address space. -/
def twoRegions : Config :=
  ⟨[⟨"low", 0x00001000#32, 0x00001FFF#32⟩, ⟨"top", 0xFFFFFFF8#32, 0xFFFFFFFF#32⟩], 0xFFFFFFF8#32, [7#32, 9#32]⟩

theorem test_wf_accepts : twoRegions.wf = true ∧ twoRegions.programFits = true ∧ Config.default.wf = true := by decide

theorem test_wf_refuses_base_above_limit :
    ({ twoRegions with regions := [⟨"text", 8#32, 7#32⟩] } : Config).boundsOrdered = false := by decide

theorem test_wf_refuses_overlap :
    ({ twoRegions with regions := [⟨"a", 0#32, 7#32⟩, ⟨"b", 7#32, 9#32⟩] } : Config).regionsDisjoint = false := by decide

theorem test_wf_refuses_unmapped_text_base :
    ({ twoRegions with textBase := 0xFFFFFFF7#32 } : Config).textBaseMapped = false := by decide

theorem test_program_too_long_does_not_fit :
    ({ twoRegions with image := [1#32, 2#32, 3#32] } : Config).programFits = false := by decide

theorem test_shell_refuses_out_of_range_arguments :
    (ShellCommand.input 32 0).accepted = false ∧ (ShellCommand.input 0 (2 ^ 32)).accepted = false ∧
    (ShellCommand.high (2 ^ 32)).accepted = false ∧ (ShellCommand.low (2 ^ 32)).accepted = false ∧
    (ShellCommand.mdump 0 (2 ^ 32)).accepted = false ∧ (ShellCommand.memoryPatch (2 ^ 32) 0).accepted = false := by decide

/-! ### Decoding: every constructor, from words written field by field -/

theorem test_decode_shifts :
    decodeWord (0b000000#6 ++ 0b00000#5 ++ 0b01001#5 ++ 0b01010#5 ++ 0b00101#5 ++ 0b000000#6) = .ok (.sll 10 9 5) ∧
    decodeWord (0b000000#6 ++ 0b00000#5 ++ 0b01001#5 ++ 0b01010#5 ++ 0b00101#5 ++ 0b000010#6) = .ok (.srl 10 9 5) ∧
    decodeWord (0b000000#6 ++ 0b00000#5 ++ 0b01001#5 ++ 0b01010#5 ++ 0b00101#5 ++ 0b000011#6) = .ok (.sra 10 9 5) := by decide

theorem test_decode_register_arithmetic :
    decodeWord (0b000000#6 ++ 0b01000#5 ++ 0b01001#5 ++ 0b01010#5 ++ 0b00000#5 ++ 0b100000#6) = .ok (.add 10 8 9) ∧
    decodeWord (0b000000#6 ++ 0b01000#5 ++ 0b01001#5 ++ 0b01010#5 ++ 0b00000#5 ++ 0b100001#6) = .ok (.addu 10 8 9) ∧
    decodeWord (0b000000#6 ++ 0b01000#5 ++ 0b01001#5 ++ 0b01010#5 ++ 0b00000#5 ++ 0b100010#6) = .ok (.sub 10 8 9) ∧
    decodeWord (0b000000#6 ++ 0b01000#5 ++ 0b01001#5 ++ 0b01010#5 ++ 0b00000#5 ++ 0b100011#6) = .ok (.subu 10 8 9) ∧
    decodeWord (0b000000#6 ++ 0b01000#5 ++ 0b01001#5 ++ 0b01010#5 ++ 0b00000#5 ++ 0b101010#6) = .ok (.slt 10 8 9) := by decide

theorem test_decode_register_logic :
    decodeWord (0b000000#6 ++ 0b01000#5 ++ 0b01001#5 ++ 0b01010#5 ++ 0b00000#5 ++ 0b100100#6) = .ok (.and 10 8 9) ∧
    decodeWord (0b000000#6 ++ 0b01000#5 ++ 0b01001#5 ++ 0b01010#5 ++ 0b00000#5 ++ 0b100101#6) = .ok (.or 10 8 9) ∧
    decodeWord (0b000000#6 ++ 0b01000#5 ++ 0b01001#5 ++ 0b01010#5 ++ 0b00000#5 ++ 0b100110#6) = .ok (.xor 10 8 9) ∧
    decodeWord (0b000000#6 ++ 0b01000#5 ++ 0b01001#5 ++ 0b01010#5 ++ 0b00000#5 ++ 0b100111#6) = .ok (.nor 10 8 9) := by decide

theorem test_decode_multiply_divide :
    decodeWord (0b000000#6 ++ 0b01000#5 ++ 0b01001#5 ++ 0b00000#5 ++ 0b00000#5 ++ 0b011000#6) = .ok (.mult 8 9) ∧
    decodeWord (0b000000#6 ++ 0b01000#5 ++ 0b01001#5 ++ 0b00000#5 ++ 0b00000#5 ++ 0b011001#6) = .ok (.multu 8 9) ∧
    decodeWord (0b000000#6 ++ 0b01000#5 ++ 0b01001#5 ++ 0b00000#5 ++ 0b00000#5 ++ 0b011010#6) = .ok (.div 8 9) ∧
    decodeWord (0b000000#6 ++ 0b01000#5 ++ 0b01001#5 ++ 0b00000#5 ++ 0b00000#5 ++ 0b011011#6) = .ok (.divu 8 9) := by decide

theorem test_decode_hi_lo :
    decodeWord (0b000000#6 ++ 0b00000#5 ++ 0b00000#5 ++ 0b01010#5 ++ 0b00000#5 ++ 0b010000#6) = .ok (.mfhi 10) ∧
    decodeWord (0b000000#6 ++ 0b01000#5 ++ 0b00000#5 ++ 0b00000#5 ++ 0b00000#5 ++ 0b010001#6) = .ok (.mthi 8) ∧
    decodeWord (0b000000#6 ++ 0b00000#5 ++ 0b00000#5 ++ 0b01010#5 ++ 0b00000#5 ++ 0b010010#6) = .ok (.mflo 10) ∧
    decodeWord (0b000000#6 ++ 0b01000#5 ++ 0b00000#5 ++ 0b00000#5 ++ 0b00000#5 ++ 0b010011#6) = .ok (.mtlo 8) := by decide

theorem test_decode_register_jumps_and_syscall :
    decodeWord (0b000000#6 ++ 0b11111#5 ++ 0b00000#5 ++ 0b00000#5 ++ 0b00000#5 ++ 0b001000#6) = .ok (.jr 31) ∧
    decodeWord (0b000000#6 ++ 0b01000#5 ++ 0b00000#5 ++ 0b01010#5 ++ 0b00000#5 ++ 0b001001#6) = .ok (.jalr 10 8) ∧
    decodeWord (0b000000#6 ++ 0b00000#5 ++ 0b00000#5 ++ 0b00000#5 ++ 0b00000#5 ++ 0b001100#6) = .ok (.syscall) := by decide

theorem test_decode_jumps :
    decodeWord (0b000010#6 ++ 0b10000000000000000000000001#26) = .ok (.j 0x2000001) ∧
    decodeWord (0b000011#6 ++ 0b10000000000000000000000001#26) = .ok (.jal 0x2000001) := by decide

theorem test_decode_branches :
    decodeWord (0b000100#6 ++ 0b01000#5 ++ 0b01001#5 ++ 0b1000000000000001#16) = .ok (.beq 8 9 0x8001) ∧
    decodeWord (0b000101#6 ++ 0b01000#5 ++ 0b01001#5 ++ 0b1000000000000001#16) = .ok (.bne 8 9 0x8001) ∧
    decodeWord (0b000110#6 ++ 0b01000#5 ++ 0b00000#5 ++ 0b1000000000000001#16) = .ok (.blez 8 0x8001) ∧
    decodeWord (0b000111#6 ++ 0b01000#5 ++ 0b00000#5 ++ 0b1000000000000001#16) = .ok (.bgtz 8 0x8001) := by decide

theorem test_decode_immediates :
    decodeWord (0b001000#6 ++ 0b01000#5 ++ 0b01001#5 ++ 0b1000000000000001#16) = .ok (.addi 9 8 0x8001) ∧
    decodeWord (0b001001#6 ++ 0b01000#5 ++ 0b01001#5 ++ 0b1000000000000001#16) = .ok (.addiu 9 8 0x8001) ∧
    decodeWord (0b001010#6 ++ 0b01000#5 ++ 0b01001#5 ++ 0b1000000000000001#16) = .ok (.slti 9 8 0x8001) ∧
    decodeWord (0b001100#6 ++ 0b01000#5 ++ 0b01001#5 ++ 0b1000000000000001#16) = .ok (.andi 9 8 0x8001) ∧
    decodeWord (0b001101#6 ++ 0b01000#5 ++ 0b01001#5 ++ 0b1000000000000001#16) = .ok (.ori 9 8 0x8001) ∧
    decodeWord (0b001110#6 ++ 0b01000#5 ++ 0b01001#5 ++ 0b1000000000000001#16) = .ok (.xori 9 8 0x8001) ∧
    decodeWord (0b001111#6 ++ 0b00000#5 ++ 0b01001#5 ++ 0b1000000000000001#16) = .ok (.lui 9 0x8001) := by decide

theorem test_decode_loads_and_stores :
    decodeWord (0b100000#6 ++ 0b01000#5 ++ 0b01001#5 ++ 0b1000000000000001#16) = .ok (.lb 9 8 0x8001) ∧
    decodeWord (0b100001#6 ++ 0b01000#5 ++ 0b01001#5 ++ 0b1000000000000001#16) = .ok (.lh 9 8 0x8001) ∧
    decodeWord (0b100011#6 ++ 0b01000#5 ++ 0b01001#5 ++ 0b1000000000000001#16) = .ok (.lw 9 8 0x8001) ∧
    decodeWord (0b101000#6 ++ 0b01000#5 ++ 0b01001#5 ++ 0b1000000000000001#16) = .ok (.sb 9 8 0x8001) ∧
    decodeWord (0b101001#6 ++ 0b01000#5 ++ 0b01001#5 ++ 0b1000000000000001#16) = .ok (.sh 9 8 0x8001) ∧
    decodeWord (0b101011#6 ++ 0b01000#5 ++ 0b01001#5 ++ 0b1000000000000001#16) = .ok (.sw 9 8 0x8001) := by decide

/-- Illegal words (R76, R77), and bytes too few for an instruction. -/
theorem test_decode_rejects :
    decodeWord 0x04000000#32 = .error (.illegalOpcode 0x01) ∧ decodeWord 0xFFFFFFFF#32 = .error (.illegalOpcode 0x3F) ∧
    decodeWord 0x0000002B#32 = .error (.illegalFunct 0x2B) ∧ decodeWord 0x00000001#32 = .error (.illegalFunct 0x01) ∧
    decodeBytes [0x0C#8, 0#8, 0#8] = .error .truncated := by decide

/-- The first byte is the least significant (20_memory.md R55): the bytes of 0x20080005. -/
theorem test_decode_bytes : decodeBytes [0x05#8, 0x00#8, 0x08#8, 0x20#8, 0xAA#8] = .ok (.addi 8 0 5, [0xAA#8]) := by decide

theorem test_decode_table_word :
    decodeTableWord 32 0x01095020 = some (.add 10 8 9) ∧ decodeTableWord 32 0x2C000000 = none := by decide

theorem test_encode : encode (.sw 9 8 0xFFFC) = 0xAD09FFFC#32 ∧ encode (.jalr 31 9) = 0x0120F809#32 := by decide

/-! ### One step -/

/-- One piece of the state, with a value. -/
inductive Item where
  | x (r : RegNum) (v : Word)
  | hi (v : Word)
  | lo (v : Word)
  | pc (v : Word)
  | mem (n : Nat) (a v : Word)
  | stop (code : BitVec 3) (pc word : Word)
  | run (b : Bool)

/-- The state with the item in both copies. -/
def put (s : State) : Item → State
  | .x r v => s.patchX r v
  | .hi v => s.patchHi v
  | .lo v => s.patchLo v
  | .pc v => { s with cur := { s.cur with pc := v }, next := { s.next with pc := v } }
  | .mem n a v => s.store a n v
  | .stop .. => s
  | .run b => { s with runFlag := b }

/-- The reset state with the items. -/
def given (items : List Item) : State := items.foldl put State.reset

/-- The state shows the item. -/
def shows (s : State) : Item → Bool
  | .x r v => s.x r == v
  | .hi v => s.cur.hi == v
  | .lo v => s.cur.lo == v
  | .pc v => s.cur.pc == v
  | .mem n a v => s.load a n == v
  | .stop code pc word => s.stop.reason.code == code && s.stop.pc == pc && s.stop.word == word
  | .run b => s.runFlag == b

/-- The state after the Executor ran the word as fetched at the pc, and the commit. -/
def after (s : State) (w : Word) : State :=
  match commitOutcome (execWord w (s.beginWith w)) with
  | .next t => t
  | .fault _ => s
  | .refused _ => s

/-- A vector: from `before`, the word gives `expected`, and the step counts. -/
def vector (w : Word) (before expected : List Item) : Bool :=
  expected.all (shows (after (given before) w)) && (after (given before) w).count == 1

/-- `add $10, $8, $9`. signed overflow wraps, no trap. -/
theorem test_add_V2 :
    vector 0x01095020#32 [.x 8 0x7FFFFFFF, .x 9 0x00000001]
      [.x 10 0x80000000, .pc 0x00400004] = true := by decide

/-- `add $0, $8, $9`. r0 is ordinary storage. -/
theorem test_add_V6 :
    vector 0x01090020#32 [.x 8 0x00000001, .x 9 0x00000002]
      [.x 0 0x00000003, .pc 0x00400004] = true := by decide

/-- `addu $10, $8, $9`. -/
theorem test_addu_V7 :
    vector 0x01095021#32 [.x 8 0xFFFFFFFF, .x 9 0x00000002]
      [.x 10 0x00000001, .pc 0x00400004] = true := by decide

/-- `sub $10, $8, $9`. overflow wraps, no trap. -/
theorem test_sub_V9 :
    vector 0x01095022#32 [.x 8 0x80000000, .x 9 0x00000001]
      [.x 10 0x7FFFFFFF, .pc 0x00400004] = true := by decide

/-- `sub $10, $8, $9`. -/
theorem test_sub_V10 :
    vector 0x01095022#32 [.x 8 0x00000000, .x 9 0x00000001]
      [.x 10 0xFFFFFFFF, .pc 0x00400004] = true := by decide

/-- `subu $10, $8, $9`. -/
theorem test_subu_V11 :
    vector 0x01095023#32 [.x 8 0x00000003, .x 9 0x00000005]
      [.x 10 0xFFFFFFFE, .pc 0x00400004] = true := by decide

/-- `and $10, $8, $9`. -/
theorem test_and_V12 :
    vector 0x01095024#32 [.x 8 0xF0F0F0F0, .x 9 0xFF00FF00]
      [.x 10 0xF000F000, .pc 0x00400004] = true := by decide

/-- `or $10, $8, $9`. -/
theorem test_or_V13 :
    vector 0x01095025#32 [.x 8 0xF0F0F0F0, .x 9 0x0F0F0000]
      [.x 10 0xFFFFF0F0, .pc 0x00400004] = true := by decide

/-- `xor $10, $8, $9`. -/
theorem test_xor_V14 :
    vector 0x01095026#32 [.x 8 0xFFFF0000, .x 9 0xFF00FF00]
      [.x 10 0x00FFFF00, .pc 0x00400004] = true := by decide

/-- `nor $10, $8, $9`. -/
theorem test_nor_V16 :
    vector 0x01095027#32 [.x 8 0xF0F0F0F0, .x 9 0x0F0F0000]
      [.x 10 0x00000F0F, .pc 0x00400004] = true := by decide

/-- `nor $10, $8, $9`. nor of zeros. -/
theorem test_nor_V17 : vector 0x01095027#32 [] [.x 10 0xFFFFFFFF, .pc 0x00400004] = true := by decide

/-- `slt $10, $8, $9`. signed: -2 < 3. -/
theorem test_slt_V18 :
    vector 0x0109502A#32 [.x 8 0xFFFFFFFE, .x 9 0x00000003]
      [.x 10 0x00000001, .pc 0x00400004] = true := by decide

/-- `slt $10, $8, $9`. -/
theorem test_slt_V20 :
    vector 0x0109502A#32 [.x 8 0x7FFFFFFF, .x 9 0x80000000]
      [.x 10 0x00000000, .pc 0x00400004] = true := by decide

/-- `sll $10, $9, 4`. top nibble lost, no rotate. -/
theorem test_sll_V24 : vector 0x00095100#32 [.x 9 0x12345678] [.x 10 0x23456780, .pc 0x00400004] = true := by decide

/-- `sll $0, $0, 0 (word 0)`. no-op; r0 keeps its value. -/
theorem test_sll_V32 : vector 0x00000000#32 [.x 0 0x00001234] [.x 0 0x00001234, .pc 0x00400004] = true := by decide

/-- `srl $10, $9, 4`. -/
theorem test_srl_V25 : vector 0x00095102#32 [.x 9 0xF0000000] [.x 10 0x0F000000, .pc 0x00400004] = true := by decide

/-- `srl $10, $9, 4 (rs=1)`. MIPS32 rotr bit: still srl, no rotate. -/
theorem test_srl_V27 : vector 0x00295102#32 [.x 9 0x0000000F] [.x 10 0x00000000, .pc 0x00400004] = true := by decide

/-- `sra $10, $9, 31`. -/
theorem test_sra_V29 : vector 0x000957C3#32 [.x 9 0x80000000] [.x 10 0xFFFFFFFF, .pc 0x00400004] = true := by decide

/-- `sra $10, $9, 4`. -/
theorem test_sra_V30 : vector 0x00095103#32 [.x 9 0x70000000] [.x 10 0x07000000, .pc 0x00400004] = true := by decide

/-- `mult $8, $9`. (-1)*2. -/
theorem test_mult_V34 :
    vector 0x01090018#32 [.x 8 0xFFFFFFFF, .x 9 0x00000002]
      [.hi 0xFFFFFFFF, .lo 0xFFFFFFFE, .pc 0x00400004] = true := by decide

/-- `mult $8, $9`. (-2^31)^2. -/
theorem test_mult_V35 :
    vector 0x01090018#32 [.x 8 0x80000000, .x 9 0x80000000]
      [.hi 0x40000000, .lo 0x00000000, .pc 0x00400004] = true := by decide

/-- `multu $8, $9`. -/
theorem test_multu_V38 :
    vector 0x01090019#32 [.x 8 0xFFFFFFFF, .x 9 0xFFFFFFFF]
      [.hi 0xFFFFFFFE, .lo 0x00000001, .pc 0x00400004] = true := by decide

/-- `multu $8, $9`. -/
theorem test_multu_V39 :
    vector 0x01090019#32 [.x 8 0xFFFFFFFF, .x 9 0x00000002]
      [.hi 0x00000001, .lo 0xFFFFFFFE, .pc 0x00400004] = true := by decide

/-- `div $8, $9`. -7/2 truncates toward 0. -/
theorem test_div_V42 :
    vector 0x0109001A#32 [.x 8 0xFFFFFFF9, .x 9 0x00000002]
      [.lo 0xFFFFFFFD, .hi 0xFFFFFFFF, .pc 0x00400004] = true := by decide

/-- `div $8, $9`. INT_MIN / -1, decision D12. -/
theorem test_div_V45 :
    vector 0x0109001A#32 [.x 8 0x80000000, .x 9 0xFFFFFFFF]
      [.lo 0x80000000, .hi 0x00000000, .pc 0x00400004] = true := by decide

/-- `divu $8, $9`. -/
theorem test_divu_V47 :
    vector 0x0109001B#32 [.x 8 0xFFFFFFF9, .x 9 0x00000002]
      [.lo 0x7FFFFFFC, .hi 0x00000001, .pc 0x00400004] = true := by decide

/-- `divu $8, $9`. divide by zero. -/
theorem test_divu_V51 :
    vector 0x0109001B#32 [.x 8 0x00000005]
      [.stop 3 0x00400000 0x0109001B, .lo 0x00000000, .hi 0x00000000, .run false, .pc 0x00400004] = true := by decide

/-- `mfhi $10`. -/
theorem test_mfhi_V52 :
    vector 0x00005010#32 [.hi 0x00000001, .lo 0x00000002]
      [.x 10 0x00000001, .hi 0x00000001, .pc 0x00400004] = true := by decide

/-- `mthi $8`. -/
theorem test_mthi_V54 :
    vector 0x01000011#32 [.x 8 0xDEADBEEF, .lo 0x00000007]
      [.hi 0xDEADBEEF, .lo 0x00000007, .pc 0x00400004] = true := by decide

/-- `mflo $10`. -/
theorem test_mflo_V53 :
    vector 0x00005012#32 [.hi 0x00000001, .lo 0x00000003]
      [.x 10 0x00000003, .lo 0x00000003, .pc 0x00400004] = true := by decide

/-- `mtlo $8`. -/
theorem test_mtlo_V55 :
    vector 0x01000013#32 [.x 8 0x00000005, .hi 0x00000009]
      [.hi 0x00000009, .lo 0x00000005, .pc 0x00400004] = true := by decide

/-- `addi $9, $8, -1`. -/
theorem test_addi_V57 : vector 0x2109FFFF#32 [.x 8 0x0000000A] [.x 9 0x00000009, .pc 0x00400004] = true := by decide

/-- `addi $9, $8, 1`. overflow wraps, no trap. -/
theorem test_addi_V58 : vector 0x21090001#32 [.x 8 0x7FFFFFFF] [.x 9 0x80000000, .pc 0x00400004] = true := by decide

/-- `addiu $9, $8, 0xFFFF`. zero-extended, not -1. -/
theorem test_addiu_V60 : vector 0x2509FFFF#32 [] [.x 9 0x0000FFFF, .pc 0x00400004] = true := by decide

/-- `addiu $9, $8, 0x8000`. -/
theorem test_addiu_V62 : vector 0x25098000#32 [.x 8 0x00010000] [.x 9 0x00018000, .pc 0x00400004] = true := by decide

/-- `slti $9, $8, -1`. -/
theorem test_slti_V63 : vector 0x2909FFFF#32 [.x 8 0x00000005] [.x 9 0x00000000, .pc 0x00400004] = true := by decide

/-- `slti $9, $8, -32768`. -/
theorem test_slti_V65 : vector 0x29098000#32 [.x 8 0x80000000] [.x 9 0x00000001, .pc 0x00400004] = true := by decide

/-- `andi $9, $8, 0xFF00`. -/
theorem test_andi_V68 : vector 0x3109FF00#32 [.x 8 0x12345678] [.x 9 0x00005600, .pc 0x00400004] = true := by decide

/-- `ori $9, $8, 0x8000`. zero-extended. -/
theorem test_ori_V70 : vector 0x35098000#32 [] [.x 9 0x00008000, .pc 0x00400004] = true := by decide

/-- `xori $9, $8, 0x00FF`. -/
theorem test_xori_V72 : vector 0x390900FF#32 [.x 8 0xFFFFFFFF] [.x 9 0xFFFFFF00, .pc 0x00400004] = true := by decide

/-- `lui $9, 0x1001`. -/
theorem test_lui_V74 : vector 0x3C091001#32 [] [.x 9 0x10010000, .pc 0x00400004] = true := by decide

/-- `lw $9, 2($8)`. misaligned ea spans two words. -/
theorem test_lw_V79 :
    vector 0x8D090002#32 [.x 8 0x10000000, .mem 4 0x10000000 0x12345678, .mem 4 0x10000004 0xAABBCCDD]
      [.x 9 0xCCDD1234, .pc 0x00400004] = true := by decide

/-- `lb $9, 0($8)`. sign-extended. -/
theorem test_lb_V85 :
    vector 0x81090000#32 [.x 8 0x10000000, .mem 1 0x10000000 0x80]
      [.x 9 0xFFFFFF80, .pc 0x00400004] = true := by decide

/-- `lb $9, -1($8)`. offset sign-extended: ea 0x10000000. -/
theorem test_lb_V86 :
    vector 0x8109FFFF#32 [.x 8 0x10000001, .mem 4 0x10000000 0x12345678]
      [.x 9 0x00000078, .pc 0x00400004] = true := by decide

/-- `lh $9, 1($8)`. odd ea allowed. -/
theorem test_lh_V88 :
    vector 0x85090001#32 [.x 8 0x10000000, .mem 4 0x10000000 0x12345678]
      [.x 9 0x00003456, .pc 0x00400004] = true := by decide

/-- `lh $9, 0($8)`. high byte past limit reads 0. -/
theorem test_lh_V92 :
    vector 0x85090000#32 [.x 8 0x100FFFFF, .mem 4 0x100FFFFC 0x80FFFFFF]
      [.x 9 0x00000080, .pc 0x00400004] = true := by decide

/-- `sb $9, 0($8)`. -/
theorem test_sb_V93 :
    vector 0xA1090000#32 [.x 8 0x10000000, .x 9 0xABCDEF80, .mem 4 0x10000000 0x12345678]
      [.mem 4 0x10000000 0x12345680, .pc 0x00400004] = true := by decide

/-- `sb $9, -1($8)`. ea 0x10000003. -/
theorem test_sb_V94 :
    vector 0xA109FFFF#32 [.x 8 0x10000004, .x 9 0x000000AA, .mem 4 0x10000000 0x12345678]
      [.mem 4 0x10000000 0xAA345678, .pc 0x00400004] = true := by decide

/-- `sh $9, 1($8)`. odd ea allowed. -/
theorem test_sh_V96 :
    vector 0xA5090001#32 [.x 8 0x10000000, .x 9 0x0000CAFE, .mem 4 0x10000000 0x12345678]
      [.mem 4 0x10000000 0x12CAFE78, .pc 0x00400004] = true := by decide

/-- `sh $9, 0($8)`. high byte dropped. -/
theorem test_sh_V97 :
    vector 0xA5090000#32 [.x 8 0x100FFFFF, .x 9 0x00001122]
      [.mem 4 0x100FFFFC 0x22000000, .pc 0x00400004] = true := by decide

/-- `sw $9, 1($8)`. misaligned store. -/
theorem test_sw_V100 :
    vector 0xAD090001#32 [.x 8 0x10000000, .x 9 0xAABBCCDD, .mem 4 0x10000000 0x12345678]
      [.mem 4 0x10000000 0xBBCCDD78, .mem 4 0x10000004 0x000000AA, .pc 0x00400004] = true := by decide

/-- `sw $9, 0($8)`. 2 bytes dropped at limit. -/
theorem test_sw_V102 :
    vector 0xAD090000#32 [.x 8 0x100FFFFE, .x 9 0xAABBCCDD]
      [.mem 4 0x100FFFFC 0xCCDD0000, .pc 0x00400004] = true := by decide

/-- `beq $8, $9, +3`. source §8: taken, 0x1000 + (3<<2). -/
theorem test_beq_V103 :
    vector 0x11090003#32 [.pc 0x00001000, .x 8 0x00000001, .x 9 0x00000001]
      [.pc 0x0000100C] = true := by decide

/-- `beq $8, $9, +3`. source §8: not taken, pc+4. -/
theorem test_beq_V104 :
    vector 0x11090003#32 [.pc 0x00001000, .x 8 0x00000001, .x 9 0x00000002]
      [.pc 0x00001004] = true := by decide

/-- `bne $8, $9, -4`. -/
theorem test_bne_V107 :
    vector 0x1509FFFC#32 [.pc 0x00400010, .x 8 0x00000001, .x 9 0x00000000]
      [.pc 0x00400000] = true := by decide

/-- `bne $8, $9, -4`. -/
theorem test_bne_V108 :
    vector 0x1509FFFC#32 [.pc 0x00400010, .x 8 0x00000001, .x 9 0x00000001]
      [.pc 0x00400014] = true := by decide

/-- `blez $8, +2`. -/
theorem test_blez_V112 : vector 0x19000002#32 [.x 8 0x80000000] [.pc 0x00400008] = true := by decide

/-- `blez $8, +2 (rt=5)`. rt field ignored. -/
theorem test_blez_V114 : vector 0x19050002#32 [.x 8 0x00000000] [.pc 0x00400008] = true := by decide

/-- `bgtz $8, -8`. -/
theorem test_bgtz_V115 : vector 0x1D00FFF8#32 [.pc 0x00400020, .x 8 0x00000005] [.pc 0x00400000] = true := by decide

/-- `bgtz $8, -8`. -/
theorem test_bgtz_V117 : vector 0x1D00FFF8#32 [.pc 0x00400020, .x 8 0x80000000] [.pc 0x00400024] = true := by decide

/-- `j 0x100`. source §8 example. -/
theorem test_j_V120 : vector 0x08000100#32 [.pc 0x00401000] [.pc 0x00000400] = true := by decide

/-- `j 0x3FFFFFF`. high bits from the jump's own pc. -/
theorem test_j_V122 : vector 0x0BFFFFFF#32 [.pc 0x0FFFFFFC] [.pc 0x0FFFFFFC] = true := by decide

/-- `jal 0x100`. source §8 example; link pc+4. -/
theorem test_jal_V124 : vector 0x0C000100#32 [.pc 0x00401000] [.pc 0x00000400, .x 31 0x00401004] = true := by decide

/-- `jal 0`. link wraps to 0. -/
theorem test_jal_V125 : vector 0x0C000000#32 [.pc 0xFFFFFFFC] [.pc 0xF0000000, .x 31 0x00000000] = true := by decide

/-- `jr $8`. misaligned target accepted. -/
theorem test_jr_V127 : vector 0x01000008#32 [.x 8 0x00400002] [.pc 0x00400002] = true := by decide

/-- `jr $8 (rt=3, rd=4, shamt=5)`. unused fields ignored. -/
theorem test_jr_V128 : vector 0x01032148#32 [.x 8 0x00400010] [.pc 0x00400010, .x 4 0x00000000] = true := by decide

/-- `jalr $9, $9`. target is the old x9. -/
theorem test_jalr_V130 : vector 0x01204809#32 [.x 9 0x00400100] [.pc 0x00400100, .x 9 0x00400004] = true := by decide

/-- `jalr $0, $9`. link into r0 is stored. -/
theorem test_jalr_V131 : vector 0x01200009#32 [.x 9 0x00400100] [.pc 0x00400100, .x 0 0x00400004] = true := by decide

/-- `syscall`. -/
theorem test_syscall_V132 :
    vector 0x0000000C#32 [.pc 0x0040000C]
      [.stop 1 0x0040000C 0x0000000C, .run false, .pc 0x00400010] = true := by decide

/-- `syscall (code bits set)`. unused fields ignored. -/
theorem test_syscall_V133 :
    vector 0x03FFFFCC#32 []
      [.stop 1 0x00400000 0x03FFFFCC, .run false, .pc 0x00400004] = true := by decide

/-- `sltiu`. illegal: pc stays, nothing written. -/
theorem test_illegal_V134 :
    vector 0x2C000000#32 [.pc 0x00400008, .x 8 0x00000007]
      [.stop 2 0x00400008 0x2C000000, .run false, .pc 0x00400008] = true := by decide

/-- `sllv`. illegal: pc stays, nothing written. -/
theorem test_illegal_V138 :
    vector 0x00000004#32 [.x 8 0x00000007]
      [.stop 2 0x00400000 0x00000004, .run false, .pc 0x00400000] = true := by decide

/-- `lw $9, 0xFFFC($8)` (R116): the offset is 65532, so the address is 0x0FFF0004 + 0xFFFC = 0x10000000. -/
theorem test_lw_offset_zero_extended :
    vector 0x8D09FFFC#32 [.x 8 0x0FFF0004, .mem 4 0x10000000 0x12345678] [.x 9 0x12345678] = true := by decide

/-- The step fetches the word stored at the pc (R35): the first word of the source's scenario. -/
theorem test_step_fetches :
    (State.reset.withFetchWord 32 0x20080005).afterStep.x 8 = 5#32 ∧
    (State.reset.withFetchWord 32 0x20080005).afterStep.cur.pc = 0x00400004#32 := by decide

/-- An unmapped pc fetches 0, which is a no-op (R52), and the pc wraps past the top (R20). -/
theorem test_step_at_the_top :
    (given [.pc 0xFFFFFFFC]).afterStep = { given [.pc 0] with count := 1 } := by decide

/-- Memory stays canonical: storing 0 over a byte removes it, and bytes stand in rising order (R39, R51). -/
theorem test_memory_canonical :
    (Memory.set [(4, 1#8), (7, 2#8)] 4 0#8) = [(7, 2#8)] ∧ (Memory.set [(4, 1#8), (7, 2#8)] 5 3#8) = [(4, 1#8), (5, 3#8), (7, 2#8)] ∧
    (Memory.set [(4, 1#8)] 4 9#8) = [(4, 9#8)] ∧ Memory.set [] 4 0#8 = [] := by decide

/-- Loading (R158): word i at TEXT_BASE + 4i, least significant byte first. -/
theorem test_load_places_words :
    (State.reset.loadProgram [0x20080005#32, 0x0000000C#32]).mem =
      [(0x00400000, 0x05#8), (0x00400002, 0x08#8), (0x00400003, 0x20#8), (0x00400004, 0x0C#8)] := by decide

/-- mdump stops before the address would wrap (R165). -/
theorem test_mdump_at_the_top :
    (shell (.mdump 0xFFFFFFFC 0xFFFFFFFF) State.reset).2 = .words [(0xFFFFFFFC#32, 0#32)] ∧
    (shell (.mdump 8 7) State.reset).2 = .words [] := by decide

/-! ### Witnesses: states and operands that meet the hypotheses of the obligations -/

/-- A running state between steps with a program, data and registers: `sw $9, 0($8)` at the pc. -/
def running : State :=
  (given [.x 8 0x100FFFFC, .x 9 0xAABBCCDD, .mem 4 0x10000000 0x12345678]).withFetchWord 32 0xAD090000

/-- A stopped one. -/
def stopped : State := running.externalStop

/-- The words of the decode tests meet the premises of the clauses about a register-format word (op and funct) ... -/
theorem witness_register_words : ∀ f ∈ [0x00#6, 0x02, 0x03, 0x08, 0x09, 0x0C, 0x10, 0x11, 0x12, 0x13, 0x18, 0x19, 0x1A, 0x1B] ++
    [0x20, 0x21, 0x22, 0x23, 0x24, 0x25, 0x26, 0x27, 0x2A], op (0#6 ++ 0xFFFFF#20 ++ f) = 0#6 ∧ fn (0#6 ++ 0xFFFFF#20 ++ f) = f := by
  decide

/-- ... and of those about another word (op). -/
theorem witness_primary_words : ∀ o ∈ [0x02#6, 0x03, 0x04, 0x05, 0x06, 0x07, 0x08, 0x09, 0x0A, 0x0C, 0x0D, 0x0E, 0x0F, 0x20,
    0x21, 0x23, 0x28, 0x29, 0x2B], op (o ++ 0x3FFFFFF#26) = o ∧ o ≠ 0#6 := by decide

/-- SltComparesSigned, AddiAndSltiSignExtend: both sides of the comparison, and equality. -/
theorem witness_signed_comparison :
    (x (given [.x 8 0x80000000, .x 9 0x7FFFFFFF]) 8).toInt < (x (given [.x 8 0x80000000, .x 9 0x7FFFFFFF]) 9).toInt ∧
    ¬ (x (given [.x 8 7, .x 9 7]) 8).toInt < (x (given [.x 8 7, .x 9 7]) 9).toInt ∧
    (x (given [.x 8 0xFFFF7FFF]) 8).toInt < (0x8000#16).toInt ∧ ¬ (x (given [.x 8 0x7FFF]) 8).toInt < (0x7FFF#16).toInt := by
  decide

/-- ShiftsByShamt, BitwiseRegisterOperations, BitwiseImmediateOperations: bit 31, and both branches of the sign fill. -/
theorem witness_bit_ranges : 31 < 32 ∧ 0 + (31#5).toNat < 32 ∧ ¬ 1 + (31#5).toNat < 32 ∧ decide (15 < 16) = true ∧
    decide (16 < 16) = false := by decide

/-- DivWritesTruncatedQuotient, DivuWritesFloorQuotient: nonzero divisors, the least and the greatest. -/
theorem witness_nonzero_divisor : x (given [.x 9 1]) 9 ≠ 0#32 ∧ x (given [.x 9 0xFFFFFFFF]) 9 ≠ 0#32 := by decide

/-- DivIdentityAndOverflowCorner: the corner, and its two neighbours outside it. -/
theorem witness_divide_corner :
    (x (given [.x 8 0x80000000, .x 9 0xFFFFFFFF]) 8 = 0x80000000#32 ∧ x (given [.x 8 0x80000000, .x 9 0xFFFFFFFF]) 9 = 0xFFFFFFFF#32) ∧
    ¬ (x (given [.x 8 0x80000001, .x 9 0xFFFFFFFF]) 8 = 0x80000000#32) ∧
    ¬ (x (given [.x 8 0x80000000, .x 9 0xFFFFFFFE]) 9 = 0xFFFFFFFF#32) := by decide

/-- DivideByZeroStopsTheRun. -/
theorem witness_zero_divisor : x (given [.x 8 5]) 9 = 0#32 := by decide

/-- LwLoadsWithZeroExtendedOffset: an address that wraps. -/
theorem witness_lw_address : (0x0000FFFE#32).toNat = ((x (given [.x 8 0xFFFFFFFF]) 8).toNat + (0xFFFF#16).toNat) % 2 ^ 32 := by
  decide

/-- LbAndLhLoadSignExtended: an address below 0 wraps to the top. -/
theorem witness_signed_address :
    ((0xFFFFFFFF#32).toNat : Int) = (((x State.reset 8).toNat : Int) + (0xFFFF#16).toInt) % 2 ^ 32 := by decide

/-- StoresWriteLittleEndianBytes, HostPatches: the last byte stored, the byte past the limit, the byte before. -/
theorem witness_stored_bytes :
    Memory.wf running.mem ∧ Stored running 0x100FFFFE#32 4 0x100FFFFF#32 ∧ ¬ Stored running 0x100FFFFE#32 4 0x10100000#32 ∧
    ¬ Stored running 0x100FFFFE#32 4 0x100FFFFD#32 := by
  refine ⟨by decide, ⟨⟨"data", 0x10000000#32, 0x100FFFFF#32⟩, by decide⟩, ?_, ?_⟩
  · rintro ⟨r, hr, -, -, h⟩
    have hd : regionOf running.config.regions 0x100FFFFE#32 = some ⟨"data", 0x10000000#32, 0x100FFFFF#32⟩ := by decide
    rw [hd] at hr; cases hr; exact absurd h (by decide)
  · rintro ⟨r, -, h, -⟩; exact absurd h (by decide)

/-- StoreByteThenLoadByte. -/
theorem witness_store_then_load : Memory.wf running.mem ∧
    regionOf running.config.regions (running.eaSigned 8 3) = some ⟨"data", 0x10000000#32, 0x100FFFFF#32⟩ := by decide

/-- MemReadAssemblesLittleEndian: a mapped byte at the limit, one past it, one not read, an unmapped address. -/
theorem witness_memory_read :
    regionOf running.config.regions 0x100FFFFE#32 = some ⟨"data", 0x10000000#32, 0x100FFFFF#32⟩ ∧
    (1 < 2 ∧ (0x100FFFFE#32).toNat + 1 ≤ (0x100FFFFF#32).toNat) ∧ ¬ (0x100FFFFE#32).toNat + 2 ≤ (0x100FFFFF#32).toNat ∧
    ¬ (1 < 1) ∧ regionOf running.config.regions 0x10100000#32 = none := by decide

/-- UnmappedAccessesReadZeroAndAreDropped: the addresses next to a region, and an unmapped pc. -/
theorem witness_unmapped :
    regionOf running.config.regions 0x003FFFFF#32 = none ∧ regionOf running.config.regions 0x00500000#32 = none ∧
    regionOf (given [.pc 0xFFFFFFFC]).config.regions (given [.pc 0xFFFFFFFC]).cur.pc = none := by decide

/-- NarrowReadsSeeAStoredWord: the last word of a region. -/
theorem witness_whole_word : running.config.wf = true ∧ Memory.wf running.mem ∧
    regionOf running.config.regions 0x100FFFFC#32 = some ⟨"data", 0x10000000#32, 0x100FFFFF#32⟩ ∧
    (0x100FFFFC#32).toNat + 3 ≤ (0x100FFFFF#32).toNat := by decide

/-- RegionLookupIsUnique: both bounds belong to the region; a reordered map. -/
theorem witness_region_bounds : twoRegions.wf = true ∧
    regionOf twoRegions.regions 0x00001000#32 = some ⟨"low", 0x00001000#32, 0x00001FFF#32⟩ ∧
    regionOf twoRegions.regions 0xFFFFFFFF#32 = some ⟨"top", 0xFFFFFFF8#32, 0xFFFFFFFF#32⟩ ∧
    twoRegions.regions.reverse.Perm twoRegions.regions :=
  ⟨by decide, by decide, by decide, List.reverse_perm _⟩

/-- NextFetchSeesAStore, PcAdvancesByFour, CounterCountsEveryStep, StepRunsTheDecodedInstruction: a running state of the
invariant whose word is a sw, at the last word of a region. -/
theorem witness_running_store :
    running.Inv ∧ running.runFlag = true ∧ decodeWord running.fetch = .ok (.sw 9 8 0) ∧ ¬ ControlTransfer (.sw 9 8 0) ∧
    regionOf running.config.regions (running.eaSigned 8 0) = some ⟨"data", 0x10000000#32, 0x100FFFFF#32⟩ ∧
    (running.eaSigned 8 0).toNat + 3 ≤ (0x100FFFFF#32).toNat := by
  refine ⟨by decide, by decide, by decide, id, by decide, by decide⟩

/-- StepRunsTheDecodedInstruction: exec answers a next state there. -/
theorem witness_exec_answers :
    decodeWord (running.load running.cur.pc 4) = .ok (.sw 9 8 0) ∧
    exec (.sw 9 8 0) { running with next := { running.next with pc := running.cur.pc + 4#32 }, word := running.load running.cur.pc 4 } =
      .next (running.begin.store 0x100FFFFC#32 4 0xAABBCCDD#32) := ⟨by decide, rfl⟩

/-- BeqAndBneBranch, BlezAndBgtzBranch: equal and unequal, and the two sides of zero. -/
theorem witness_branch_conditions :
    x (given [.x 8 5, .x 9 5]) 8 = x (given [.x 8 5, .x 9 5]) 9 ∧ x (given [.x 8 0x80000000]) 8 ≠ x (given [.x 8 0x80000000]) 9 ∧
    (x (given [.x 8 0]) 8).toInt ≤ 0 ∧ 0 < (x (given [.x 8 1]) 8).toInt ∧ (x (given [.x 8 0x80000000]) 8).toInt ≤ 0 ∧
    0 < (x (given [.x 8 0x7FFFFFFF]) 8).toInt := by decide

/-- LabelsReachTheirTargets: both ends of a branch's reach, one across address 0, and a jump's last target. -/
theorem witness_labels :
    ((0x00420FFC#32).toNat : Int) = ((0x00401000#32).toNat + (2 ^ 17 - 4)) % 2 ^ 32 ∧ ((2 : Int) ^ 17 - 4) % 4 = 0 ∧
    ((0xFFFE0000#32).toNat : Int) = (((0x00000000#32).toNat : Int) + (-2 ^ 17)) % 2 ^ 32 ∧ (-2 ^ 17 : Int) % 4 = 0 ∧
    (0x0FFFFFFC#32).toNat % 4 = 0 ∧ (0x0FFFFFFC#32).toNat / 2 ^ 28 = State.reset.cur.pc.toNat / 2 ^ 28 ∧
    x (given [.x 8 1, .x 9 1]) 8 = x (given [.x 8 1, .x 9 1]) 9 ∧ 0 < (x (given [.x 8 1]) 8).toInt ∧
    x (given [.x 8 1]) 8 ≠ x (given [.x 8 1]) 9 ∧ (x (given [.x 8 0]) 8).toInt ≤ 0 := by decide

/-- The loop branch of P2 and the call of P4 (95_test_vectors.md), assembled from their labels (R82). -/
theorem test_labels : branchField 0x00400010#32 0x00400008#32 = 0xFFFE#16 ∧ jumpField 0x00400020#32 = 0x100008#26 := by decide

/-- IllegalWordStopsTheRun, IllegalWordsAreExactlyTheListed, StopCausesAreExactlyTheListed (first cause). -/
theorem witness_illegal :
    (given [.mem 4 0x00400000 0x2C000000]).runFlag = true ∧
    (given [.mem 4 0x00400000 0x2C000000]).next = (given [.mem 4 0x00400000 0x2C000000]).cur ∧
    decodeWord (given [.mem 4 0x00400000 0x2C000000]).fetch = .error (.illegalOpcode 0x0B) ∧
    op 0x2C000000#32 ∈ illegalOpcodes ∧ op 0x0000002B#32 = 0#6 ∧ fn 0x0000002B#32 ∈ illegalFuncts ∧
    ¬ (op 0x0000002A#32 ∈ illegalOpcodes ∨ op 0x0000002A#32 = 0#6 ∧ fn 0x0000002A#32 ∈ illegalFuncts) := by decide

/-- StopCausesAreExactlyTheListed: the other two causes. -/
theorem witness_stop_causes :
    decodeWord (given [.mem 4 0x00400000 0x0000000C]).fetch = .ok .syscall ∧
    decodeWord (given [.mem 4 0x00400000 0x0109001A]).fetch = .ok (.div 8 9) ∧
    DividesByZero (given [.mem 4 0x00400000 0x0109001A]) (.div 8 9) ∧ DividesByZero State.reset (.divu 8 9) := by
  refine ⟨by decide, by decide, ?_, ?_⟩ <;> (show x _ _ = _; decide)

/-- EncodeClearsOnlyUnusedBits, UnusedFieldsAreIgnored: words that differ in unused bits, legal and illegal. -/
theorem witness_unused_fields :
    decodeWord 0x03FFFFCC#32 = .ok .syscall ∧ 0x03FFFFCC#32 &&& usedMask .syscall = 0x0000000C#32 &&& usedMask .syscall ∧
    decodeWord 0x03FFFFEB#32 = .error (.illegalFunct 0x2B) ∧ op 0x0000002B#32 = op 0x03FFFFEB#32 ∧
    fn 0x0000002B#32 = fn 0x03FFFFEB#32 ∧
    decodeWord 0x0000000C#32 = .ok .syscall ∧ op 0x03FFFFCC#32 = op 0x0000000C#32 ∧ fn 0x03FFFFCC#32 = fn 0x0000000C#32 := by
  decide

/-- AtMostOneWritePerInstruction: another register than the destination, a bystander of HI and LO, a store and no store. -/
theorem witness_one_write :
    destination (.addi 9 8 1) ≠ some 8#5 ∧ destination (.jal 0) = some 31#5 ∧ ¬ WritesHi (.mtlo 8) ∧ ¬ WritesLo (.mthi 8) ∧
    storeOperands (.lw 9 8 0) = none ∧ storeOperands (.sh 9 8 0xFFFF) = some ⟨8, 0xFFFF, 2, 9⟩ ∧ Memory.wf running.mem :=
  ⟨by decide, rfl, id, id, rfl, rfl, by decide⟩

/-- StopCausesAreExactlyTheListed (a STOPPED state), StepWhileStoppedDoesNothing, RunComposes, OnlyResetLeavesStopped, ExplicitStop. -/
theorem witness_stopped : stopped.runFlag = false ∧ running.runFlag = true ∧ ShellCommand.run 5 ≠ .reset ∧
    (∀ image, ShellCommand.run 5 ≠ .load image) := ⟨by decide, by decide, nofun, nofun⟩

/-- HiLoReadersAndWritersAreTheListed. -/
theorem witness_hi_lo_bystanders :
    ¬ WritesHi (.mtlo 8) ∧ ¬ WritesLo (.mthi 8) ∧ ¬ ReadsHi (.mflo 8) ∧ ¬ ReadsLo (.mfhi 8) ∧ ¬ ReadsHi (.mult 8 9) ∧
    ShellCommand.print ≠ .rdump := ⟨id, id, id, id, id, by decide⟩

/-- StepKeepsInv, HostCommandsKeepInv: states of the invariant, and a step between two of them. -/
theorem witness_invariant : running.Inv ∧ step running = .next running.afterStep ∧ stopped.Inv :=
  ⟨by decide, rfl, by decide⟩

/-- RegionsNeverChange, ResetValues: the byte before a program's first word. -/
theorem witness_byte_outside_the_program :
    ∀ i k : Nat, i < (State.resetFrom twoRegions).config.image.length → k < 4 →
      0xFFFFFFF7#32 ≠ (State.resetFrom twoRegions).config.textBase + BitVec.ofNat 32 (4 * i + k) := by
  have h : ∀ i < 2, ∀ k < 4, 0xFFFFFFF7#32 ≠ 0xFFFFFFF8#32 + BitVec.ofNat 32 (4 * i + k) := by decide
  exact fun i k hi hk => h i hi k hk

/-- ResetForgetsTheRun. -/
theorem witness_same_configuration : stopped.config = running.config := by decide

/-- LoaderPlacesEveryWord, ResetValues: a program that fills its region up to the top of the address space, its last word. -/
theorem witness_program : twoRegions.wf = true ∧ twoRegions.programFits = true ∧ twoRegions.image[1]? = some 9#32 := by decide

/-- EndOfRunIsUnique: a run of one step that ends at a syscall. -/
theorem witness_end_of_run :
    EndsIn (given [.mem 4 0x00400000 0x0000000C]) (given [.mem 4 0x00400000 0x0000000C]).afterStep := ⟨1, by decide⟩

/-- ZeroedMemoryRunsForever. -/
theorem witness_zeroed_memory :
    State.reset.runFlag = true ∧ State.reset.next = State.reset.cur ∧ State.reset.mem = [] ∧ State.reset.word = 0#32 := by decide

/-- HostPatches, MemoryDumpReadsTheRange: each clause at the edges of its range. -/
theorem witness_argument_ranges :
    (31 < 32 ∧ 2 ^ 32 - 1 < 2 ^ 32 ∧ 32 ≤ 32 ∧ 2 ^ 32 ≤ 2 ^ 32) ∧ (31#5).toNat ≠ 30 ∧
    (0xFFFFFFFC + 4 * 0 ≤ 0xFFFFFFFF ∧ ¬ 0xFFFFFFFC + 4 * 1 ≤ 0xFFFFFFFF) := by decide

/-- RegisterZeroIsOrdinary: `addi $0, $8, -1` at the pc. -/
theorem witness_register_zero :
    (given [.mem 4 0x00400000 0x2100FFFF]).runFlag = true ∧
    decodeWord (given [.mem 4 0x00400000 0x2100FFFF]).fetch = .ok (.addi 0 8 0xFFFF) := by decide

end Sys2Proof.Tests
end

section
/-! SUPPORT. HI and LO (10_state.md R21): which instructions and host commands write them, and which read them. -/

namespace Sys2Proof.Machine

open Sys2Proof.Claims

/-! ### What every instruction answers and leaves -/

theorem branchIf_eq (taken : Bool) (imm : Imm16) (s : State) :
    branchIf taken imm s = .next (s.setPc (if taken then s.branchTarget imm else s.next.pc)) := by
  cases taken <;> rfl

/-- Every instruction answers a next state with CURRENT as it was, and only the listed ones write NEXT's HI and LO. -/
theorem exec_keeps_cur_hi_lo (i : Instr) (s : State) : ∃ t, exec i s = .next t ∧ t.cur = s.cur ∧
    (¬ WritesHi i → t.next.hi = s.next.hi) ∧ (¬ WritesLo i → t.next.lo = s.next.lo) := by
  cases i with
  | beq | bne | blez | bgtz => exact ⟨_, branchIf_eq .., rfl, fun _ => rfl, fun _ => rfl⟩
  | div rs rt | divu rs rt =>
    by_cases hzero : s.x rt = 0#32
    · exact ⟨_, if_pos hzero, rfl, absurd trivial, absurd trivial⟩
    · exact ⟨_, if_neg hzero, rfl, absurd trivial, absurd trivial⟩
  | mult | multu => exact ⟨_, rfl, rfl, absurd trivial, absurd trivial⟩
  | mthi => exact ⟨_, rfl, rfl, absurd trivial, fun _ => rfl⟩
  | mtlo => exact ⟨_, rfl, rfl, fun _ => rfl, absurd trivial⟩
  | _ => exact ⟨_, rfl, rfl, fun _ => rfl, fun _ => rfl⟩

/-! ### No instruction but mfhi and mflo reads HI or LO -/

/-- The state with other values in CURRENT.hi and CURRENT.lo. -/
def withHiLo (h l : Word) (s : State) : State := { s with cur := { s.cur with hi := h, lo := l } }

theorem withHi_eq (h : Word) (s : State) : withHi h s = withHiLo h s.cur.lo s := rfl

theorem withLo_eq (l : Word) (s : State) : withLo l s = withHiLo s.cur.hi l s := rfl

/-- An instruction does the same with another HI unless it is mfhi, and with another LO unless it is mflo. -/
theorem exec_withHiLo {i : Instr} {h l : Word} {s : State} (hHi : ReadsHi i → h = s.cur.hi)
    (hLo : ReadsLo i → l = s.cur.lo) : exec i (withHiLo h l s) = onNext (withHiLo h l) (exec i s) := by
  cases i with
  | mfhi => obtain rfl := hHi trivial; rfl
  | mflo => obtain rfl := hLo trivial; rfl
  | beq | bne | blez | bgtz => simp only [exec, execBeq, execBne, execBlez, execBgtz, branchIf_eq]; rfl
  | div | divu => simp only [exec, execDiv, execDivu, apply_ite (onNext _)]; rfl
  | _ => rfl

theorem exec_withHi {i : Instr} (hi : ¬ ReadsHi i) (v : Word) (s : State) :
    exec i (withHi v s) = onNext (withHi v) (exec i s) := by
  obtain ⟨t, ht, hcur, -⟩ := exec_keeps_cur_hi_lo i s
  rw [withHi_eq, exec_withHiLo (absurd · hi) fun _ => rfl, ht]
  simp only [onNext, withHi_eq, hcur]

theorem exec_withLo {i : Instr} (hi : ¬ ReadsLo i) (v : Word) (s : State) :
    exec i (withLo v s) = onNext (withLo v) (exec i s) := by
  obtain ⟨t, ht, hcur, -⟩ := exec_keeps_cur_hi_lo i s
  rw [withLo_eq, exec_withHiLo (fun _ => rfl) (absurd · hi), ht]
  simp only [onNext, withLo_eq, hcur]

/-! ### The host's commands -/

/-- The commands that may change CURRENT.hi: those that load, reset or run the program, and `high`. -/
def MayChangeHi : ShellCommand → Prop
  | .sim _ | .run _ | .reset | .load _ | .high _ => True
  | _ => False

/-- The commands that may change CURRENT.lo: those that load, reset or run the program, and `low`. -/
def MayChangeLo : ShellCommand → Prop
  | .sim _ | .run _ | .reset | .load _ | .low _ => True
  | _ => False

@[simp] theorem State.externalStop_cur (s : State) : s.externalStop.cur = s.cur := by
  unfold State.externalStop
  split <;> rfl

/-- A command that is rejected changes nothing, so what its effect keeps the command keeps (R160). -/
theorem shell_keeps {α : Type} (f : State → α) {c : ShellCommand} {s : State} (h : f (c.perform s).1 = f s) :
    f (shell c s).1 = f s := by
  unfold shell
  split
  · exact h
  · rfl

theorem shell_keeps_hi {c : ShellCommand} (hc : ¬ MayChangeHi c) (s : State) :
    (shell c s).1.cur.hi = s.cur.hi := by
  refine shell_keeps (·.cur.hi) ?_
  cases c with
  | sim | run | reset | load | high => exact absurd trivial hc
  | explicitStop => exact congrArg ArchState.hi s.externalStop_cur
  | _ => rfl

theorem shell_keeps_lo {c : ShellCommand} (hc : ¬ MayChangeLo c) (s : State) :
    (shell c s).1.cur.lo = s.cur.lo := by
  refine shell_keeps (·.cur.lo) ?_
  cases c with
  | sim | run | reset | load | low => exact absurd trivial hc
  | explicitStop => exact congrArg ArchState.lo s.externalStop_cur
  | _ => rfl

/-- A dump of memory words is made of loads alone. -/
theorem State.wordsFrom_congr {s t : State} (h : ∀ a n, t.load a n = s.load a n) (a : Word) (n : Nat) :
    t.wordsFrom a n = s.wordsFrom a n := by
  induction n generalizing a with
  | zero => rfl
  | succ n ih => simp only [State.wordsFrom, h, ih]

theorem State.wordsFrom_withHiLo (h l : Word) (s : State) (a : Word) (n : Nat) :
    (withHiLo h l s).wordsFrom a n = s.wordsFrom a n :=
  State.wordsFrom_congr (s := s) (t := withHiLo h l s) (fun _ _ => rfl) a n

/-- Of the commands that do not run the program only `rdump` replies what depends on HI or LO. -/
theorem shell_reply_withHiLo {c : ShellCommand} (hdump : c ≠ .rdump) (hsim : ∀ fuel, c ≠ .sim fuel) (h l : Word)
    (s : State) : (shell c (withHiLo h l s)).2 = (shell c s).2 := by
  have hperform : (c.perform (withHiLo h l s)).2 = (c.perform s).2 := by
    cases c with
    | rdump => exact absurd rfl hdump
    | sim fuel => exact absurd rfl (hsim fuel)
    | mdump => simp only [ShellCommand.perform, State.memoryDump, State.wordsFrom_withHiLo]
    | print => exact congrArg ShellReply.words (State.wordsFrom_withHiLo h l s _ _)
    | _ => rfl
  unfold shell
  split
  · exact hperform
  · rfl

/-- Settles O42: the case split over the instructions for writers and readers, and over the commands for the host. -/
theorem hiLoReadersAndWritersAreTheListed : Obligations.HiLoReadersAndWritersAreTheListed := by
  refine ⟨fun i s => ?_, fun i s v => ⟨(exec_withHi · v s), (exec_withLo · v s)⟩,
    fun s reg val start stop c hc => ?_, fun s val => ⟨shell_keeps_lo id s, shell_keeps_hi id s⟩⟩
  · obtain ⟨t, ht, -, hframe⟩ := exec_keeps_cur_hi_lo i s
    exact ⟨t, ht, hframe⟩
  · have hbystander : ¬ MayChangeHi c ∧ ¬ MayChangeLo c ∧ ∀ fuel, c ≠ .sim fuel := by
      simp only [List.mem_cons, List.not_mem_nil, or_false] at hc
      rcases hc with rfl | rfl | rfl | rfl | rfl | rfl | rfl | rfl <;> exact ⟨id, id, nofun⟩
    obtain ⟨hHi, hLo, hsim⟩ := hbystander
    exact ⟨shell_keeps_hi hHi s, shell_keeps_lo hLo s, fun hdump v =>
      ⟨shell_reply_withHiLo hdump hsim v s.cur.lo s, shell_reply_withHiLo hdump hsim s.cur.hi v s⟩⟩

end Sys2Proof.Machine
end

section
/-! SUPPORT. The address space (20_memory.md): the lookup of a region (R43, R48), accesses where no region lies (R52, R53),
and that regions are fixed (R44). -/

namespace Sys2Proof

/-! ### Disjoint regions -/

theorem Region.disjoint_comm (r q : Region) : r.disjoint q = q.disjoint r := Bool.or_comm ..

theorem Config.pairwise_disjoint_of_wf {c : Config} (hc : c.wf = true) :
    c.regions.Pairwise fun r q => r.disjoint q = true := by
  simp only [Config.wf, Config.regionsDisjoint, Bool.and_eq_true, decide_eq_true_eq] at hc
  obtain ⟨⟨-, hdisjoint⟩, -⟩ := hc
  exact hdisjoint

/-- Disjoint regions hold no address in common. -/
theorem Region.eq_of_holds_of_pairwise_disjoint {rs : List Region} (hrs : rs.Pairwise fun r q => r.disjoint q = true)
    {r q : Region} (hr : r ∈ rs) (hq : q ∈ rs) {a : Word} (hra : r.base.toNat ≤ a.toNat ∧ a.toNat ≤ r.limit.toNat)
    (hqa : q.base.toNat ≤ a.toNat ∧ a.toNat ≤ q.limit.toNat) : r = q := by
  by_contra hne
  have : Std.Symm fun r q : Region => r.disjoint q = true := ⟨fun r q h => r.disjoint_comm q ▸ h⟩
  have hdisjoint := hrs.forall hr hq hne
  simp only [Region.disjoint, Bool.or_eq_true, decide_eq_true_eq, BitVec.lt_def] at hdisjoint
  omega

end Sys2Proof

namespace Sys2Proof.Machine

/-! ### Region(a) in a well-formed map -/

theorem regionOf_eq_some_iff {rs : List Region} (hrs : rs.Pairwise fun r q => r.disjoint q = true) {a : Word}
    {r : Region} : regionOf rs a = some r ↔ r ∈ rs ∧ r.base.toNat ≤ a.toNat ∧ a.toNat ≤ r.limit.toNat := by
  refine ⟨regionOf_mem, fun ⟨hr, hra⟩ => ?_⟩
  cases hfound : regionOf rs a with
  | none => exact absurd hra (regionOf_none.mp hfound r hr)
  | some q =>
    obtain ⟨hq, hqa⟩ := regionOf_mem hfound
    exact congrArg some (Region.eq_of_holds_of_pairwise_disjoint hrs hq hr hqa hra)

theorem regionOf_perm {rs rs' : List Region} (hperm : rs'.Perm rs) (hrs : rs.Pairwise fun r q => r.disjoint q = true)
    (a : Word) : regionOf rs' a = regionOf rs a := by
  have hrs' := (hperm.pairwise_iff fun h => Region.disjoint_comm .. ▸ h).mpr hrs
  ext r
  rw [regionOf_eq_some_iff hrs', regionOf_eq_some_iff hrs, hperm.mem_iff]

/-- Settles O23: disjoint regions make the scan's first hit the only one, and a permutation keeps them disjoint. -/
theorem regionLookupIsUnique : Obligations.RegionLookupIsUnique := fun _ a hc =>
  have hdisjoint := Config.pairwise_disjoint_of_wf hc
  ⟨fun _ => regionOf_eq_some_iff hdisjoint, fun _ hperm => regionOf_perm hperm hdisjoint a⟩

/-! ### Accesses where no region lies -/

theorem State.load_unmapped {s : State} {a : Word} (h : regionOf s.config.regions a = none) (n : Nat) :
    s.load a n = 0#32 := memRead_unmapped h s.mem n

theorem State.store_unmapped {s : State} {a : Word} (h : regionOf s.config.regions a = none) (n : Nat) (v : Word) :
    s.store a n v = s := congrArg (fun m => { s with mem := m }) (memWrite_unmapped h s.mem n v)

/-- Settles O21, from the two rules of an unmapped access; the fetch is such a read. -/
theorem unmappedAccessesReadZeroAndAreDropped : Obligations.UnmappedAccessesReadZeroAndAreDropped :=
  ⟨fun _ _ n v h => ⟨State.load_unmapped h n, State.store_unmapped h n v⟩, fun _ h => State.load_unmapped h 4, by decide⟩

/-! ### The configuration after steps and host commands -/

theorem exec_keeps_config (i : Instr) (s : State) : ∃ t, exec i s = .next t ∧ t.config = s.config := by
  cases i with
  | beq | bne | blez | bgtz => exact ⟨_, branchIf_eq .., rfl⟩
  | div rs rt | divu rs rt =>
    by_cases hzero : s.x rt = 0#32
    · exact ⟨_, if_pos hzero, rfl⟩
    · exact ⟨_, if_neg hzero, rfl⟩
  | _ => exact ⟨_, rfl, rfl⟩

theorem step_keeps_config (s : State) : ∃ t, step s = .next t ∧ t.config = s.config := by
  cases hr : s.runFlag with
  | false => exact ⟨s, step_of_stopped hr, rfl⟩
  | true =>
    cases hd : decodeWord s.fetch with
    | error => exact ⟨_, step_of_illegal hr hd, rfl⟩
    | ok i =>
      obtain ⟨t, ht, hconfig⟩ := exec_keeps_config i s.begin
      exact ⟨t.commit, by rw [step_of_decode hr hd, ht]; rfl, hconfig⟩

@[simp] theorem State.afterStep_config (s : State) : s.afterStep.config = s.config := by
  obtain ⟨t, ht, hconfig⟩ := step_keeps_config s
  rw [afterStep_of_next ht, hconfig]

@[simp] theorem runSteps_config (n : Nat) (s : State) : (runSteps n s).config = s.config := by
  induction n generalizing s with
  | zero => rfl
  | succ n ih =>
    cases hr : s.runFlag with
    | false => rw [runSteps_of_stopped hr]
    | true => rw [runSteps_succ hr, ih, State.afterStep_config]

theorem perform_sim_state (fuel : Nat) (s : State) :
    ((ShellCommand.sim fuel).perform s).1 = (runToCompletion fuel s).getD s := by
  rw [ShellCommand.perform]
  cases runToCompletion fuel s <;> rfl

theorem runToCompletion_getD_config (fuel : Nat) (s : State) :
    ((runToCompletion fuel s).getD s).config = s.config := by
  rw [runToCompletion_eq]
  split
  · rfl
  · exact runSteps_config fuel s

@[simp] theorem State.externalStop_config (s : State) : s.externalStop.config = s.config := by
  unfold State.externalStop
  split <;> rfl

/-- Of the configuration a host command writes at most the program image (R155). -/
theorem perform_config (c : ShellCommand) (s : State) :
    ∃ image, (c.perform s).1.config = { s.config with image := image } := by
  cases c with
  | load image => exact ⟨image, rfl⟩
  | run n => exact ⟨s.config.image, runSteps_config n s⟩
  | explicitStop => exact ⟨s.config.image, s.externalStop_config⟩
  | sim fuel => exact ⟨s.config.image, by rw [perform_sim_state, runToCompletion_getD_config]⟩
  | _ => exact ⟨s.config.image, rfl⟩

theorem shell_keeps_regions (c : ShellCommand) (s : State) : (shell c s).1.config.regions = s.config.regions := by
  obtain ⟨image, h⟩ := perform_config c s
  exact shell_keeps (·.config.regions) (congrArg Config.regions h :)

theorem shell_keeps_textBase (c : ShellCommand) (s : State) : (shell c s).1.config.textBase = s.config.textBase := by
  obtain ⟨image, h⟩ := perform_config c s
  exact shell_keeps (·.config.textBase) (congrArg Config.textBase h :)

/-! ### The bytes after a reset -/

/-- Reset zero-fills memory and the loader writes only the program's bytes (R61, R158). -/
theorem readByte_resetFrom_of_not_program (c : Config) {a : Word}
    (ha : ∀ i k : Nat, i < c.image.length → k < 4 → a ≠ c.textBase + BitVec.ofNat 32 (4 * i + k)) :
    (State.resetFrom c).readByte a = 0#8 := by
  rw [State.readByte_eq]
  split
  · rfl
  · exact loadWords_get_other Memory.wf_nil c.textBase a c.image ha

/-- Settles O49: no step writes the configuration, and a host command at most its image. -/
theorem regionsNeverChange : Obligations.RegionsNeverChange := by
  refine ⟨fun s t h => ?_, fun c s => ⟨shell_keeps_regions c s, shell_keeps_textBase c s⟩,
    fun s _ ha => readByte_resetFrom_of_not_program s.config ha⟩
  rw [← afterStep_of_next h, State.afterStep_config]

end Sys2Proof.Machine
end

section
/-! SUPPORT. The decoder as a table (30_encoding.md R71 to R77): a word is an instruction exactly when its opcode, and its
funct when the opcode is 0, are those of a row, and its operands are then the fields the row reads. -/

namespace Sys2Proof.Laws

open Sys2Proof.Claims
open Encoding (row)

/-! ### Rows of the table -/

/-- The fields carry the opcode of the instruction's row, and its funct when the opcode is 0 (R74, R75). -/
def InRow (d : DecodedInstruction) (i : Instr) : Prop :=
  d.opcode = (row i).1 ∧ ∀ f, (row i).2 = some f → d.funct = f

/-- The instruction of the same row with its operands read from the fields of `d` (R81). -/
def readOperands (d : DecodedInstruction) : Instr → Instr
  | .sll .. => .sll d.rd d.rt d.shamt
  | .srl .. => .srl d.rd d.rt d.shamt
  | .sra .. => .sra d.rd d.rt d.shamt
  | .jr .. => .jr d.rs
  | .jalr .. => .jalr d.rd d.rs
  | .syscall => .syscall
  | .mfhi .. => .mfhi d.rd
  | .mthi .. => .mthi d.rs
  | .mflo .. => .mflo d.rd
  | .mtlo .. => .mtlo d.rs
  | .mult .. => .mult d.rs d.rt
  | .multu .. => .multu d.rs d.rt
  | .div .. => .div d.rs d.rt
  | .divu .. => .divu d.rs d.rt
  | .add .. => .add d.rd d.rs d.rt
  | .addu .. => .addu d.rd d.rs d.rt
  | .sub .. => .sub d.rd d.rs d.rt
  | .subu .. => .subu d.rd d.rs d.rt
  | .and .. => .and d.rd d.rs d.rt
  | .or .. => .or d.rd d.rs d.rt
  | .xor .. => .xor d.rd d.rs d.rt
  | .nor .. => .nor d.rd d.rs d.rt
  | .slt .. => .slt d.rd d.rs d.rt
  | .j .. => .j d.target26
  | .jal .. => .jal d.target26
  | .beq .. => .beq d.rs d.rt d.imm16
  | .bne .. => .bne d.rs d.rt d.imm16
  | .blez .. => .blez d.rs d.imm16
  | .bgtz .. => .bgtz d.rs d.imm16
  | .addi .. => .addi d.rt d.rs d.imm16
  | .addiu .. => .addiu d.rt d.rs d.imm16
  | .slti .. => .slti d.rt d.rs d.imm16
  | .andi .. => .andi d.rt d.rs d.imm16
  | .ori .. => .ori d.rt d.rs d.imm16
  | .xori .. => .xori d.rt d.rs d.imm16
  | .lui .. => .lui d.rt d.imm16
  | .lb .. => .lb d.rt d.rs d.imm16
  | .lh .. => .lh d.rt d.rs d.imm16
  | .lw .. => .lw d.rt d.rs d.imm16
  | .sb .. => .sb d.rt d.rs d.imm16
  | .sh .. => .sh d.rt d.rs d.imm16
  | .sw .. => .sw d.rt d.rs d.imm16

@[simp] theorem mnemonic_readOperands (d : DecodedInstruction) (i : Instr) :
    mnemonic (readOperands d i) = mnemonic i := by cases i <;> rfl

/-- A row names a funct only under opcode 0 (R73). -/
theorem row_opcode_eq_zero {i : Instr} {f : BitVec 6} (h : (row i).2 = some f) : (row i).1 = 0#6 := by
  cases i with
  | j | jal | beq | bne | blez | bgtz | addi | addiu | slti | andi | ori | xori | lui | lb | lh | lw | sb | sh | sw =>
    exact nomatch h
  | _ => rfl

theorem InRow.congr {d d' : DecodedInstruction} {i : Instr} (h : InRow d i) (hop : d'.opcode = d.opcode)
    (hfn : d.opcode = 0#6 → d'.funct = d.funct) : InRow d' i := by
  obtain ⟨hopcode, hfunct⟩ := h
  refine ⟨hop.trans hopcode, fun f hf => ?_⟩
  rw [hfn (hopcode.trans (row_opcode_eq_zero hf)), hfunct f hf]

/-! ### The decoder follows the rows -/

theorem selectInstr_of_inRow {d : DecodedInstruction} {i : Instr} (h : InRow d i) :
    selectInstr d = .ok (readOperands d i) := by
  obtain ⟨hopcode, hfunct⟩ := h
  cases i with
  | j | jal | beq | bne | blez | bgtz | addi | addiu | slti | andi | ori | xori | lui | lb | lh | lw | sb | sh | sw =>
    simp only [row] at hopcode
    simp [selectInstr, selectPrimary, hopcode, readOperands]
  | _ =>
    simp only [row] at hopcode
    simp [selectInstr, selectRegister, hopcode, hfunct _ rfl, readOperands]

theorem inRow_of_selectInstr {d : DecodedInstruction} {i : Instr} (h : selectInstr d = .ok i) : InRow d i := by
  unfold selectInstr at h
  split at h
  case isTrue hopcode =>
    unfold selectRegister at h
    split at h <;> cases h <;> exact ⟨hopcode, fun _ hf => Option.some.inj hf ▸ ‹_›⟩
  case isFalse =>
    unfold selectPrimary at h
    split at h <;> cases h <;> exact ⟨‹_›, fun _ hf => nomatch hf⟩

/-- What the decoder reads: the one row the word lies in, with the operands in the word's fields. -/
theorem decodeWord_eq_ok_iff {w : Word} {i : Instr} :
    decodeWord w = .ok i ↔ InRow (cutFields w) i ∧ readOperands (cutFields w) i = i := by
  constructor
  · intro h
    have hrow := inRow_of_selectInstr h
    exact ⟨hrow, Except.ok.inj ((selectInstr_of_inRow hrow).symm.trans h)⟩
  · rintro ⟨hrow, hoperands⟩
    exact (selectInstr_of_inRow hrow).trans (congrArg _ hoperands)

/-! ### Opcode and funct alone select the row -/

theorem decodeWord_same_row {w v : Word} {i : Instr} (hw : decodeWord w = .ok i) (hop : op v = op w)
    (hfn : op w = 0#6 → fn v = fn w) : decodeWord v = .ok (readOperands (cutFields v) i) :=
  selectInstr_of_inRow ((inRow_of_selectInstr hw).congr hop hfn)

/-- Why a word without a row is rejected: its funct under opcode 0, its opcode otherwise (R76, R77). -/
def rejection (w : Word) : Reject := if op w = 0#6 then .illegalFunct (fn w) else .illegalOpcode (op w)

theorem eq_rejection_of_decodeWord {w : Word} {e : Reject} (h : decodeWord w = .error e) : e = rejection w := by
  by_cases hop : op w = 0#6
  · rw [decodeWord_register hop, selectRegister] at h
    split at h <;> cases h
    exact (if_pos hop).symm
  · rw [decodeWord_primary hop, selectPrimary] at h
    split at h <;> cases h
    exact (if_neg hop).symm

theorem decodeWord_same_error {w v : Word} {e : Reject} (hw : decodeWord w = .error e) (hop : op v = op w)
    (hfn : op w = 0#6 → fn v = fn w) : decodeWord v = .error e := by
  cases hv : decodeWord v with
  | ok j =>
    have hok := decodeWord_same_row hv hop.symm fun h => (hfn (hop ▸ h)).symm
    exact nomatch hw.symm.trans hok
  | error e' =>
    have hsame : rejection v = rejection w := by
      simp only [rejection, hop]
      split
      next h => rw [hfn h]
      next => rfl
    rw [eq_rejection_of_decodeWord hw, eq_rejection_of_decodeWord hv, hsame]

theorem isOk_decodeWord_congr {w v : Word} (hop : op v = op w) (hfn : op w = 0#6 → fn v = fn w) :
    (decodeWord v).isOk = (decodeWord w).isOk := by
  cases hw : decodeWord w with
  | ok i => rw [decodeWord_same_row hw hop hfn]; rfl
  | error e => rw [decodeWord_same_error hw hop hfn]

/-! ### Bits outside the mask are not read -/

/-- A mask keeps every field whose bits it all has. -/
theorem extractLsb'_and_of_allOnes {w m : Word} {k n : Nat} (hm : m.extractLsb' k n = BitVec.allOnes n) :
    (w &&& m).extractLsb' k n = w.extractLsb' k n := by
  rw [BitVec.extractLsb'_and, hm, BitVec.and_allOnes]

/-- The mask has every bit of the opcode, and of the funct where the row names one. -/
theorem inRow_and_usedMask (w : Word) (i : Instr) :
    InRow (cutFields (w &&& usedMask i)) i ↔ InRow (cutFields w) i := by
  cases i <;> simp (disch := decide) only [InRow, row, cutFields, usedMask, extractLsb'_and_of_allOnes]

/-- The mask has every bit of every operand field of its row. -/
theorem readOperands_and_usedMask (w : Word) (i : Instr) :
    readOperands (cutFields (w &&& usedMask i)) i = readOperands (cutFields w) i := by
  cases i <;> simp (disch := decide) only [readOperands, cutFields, usedMask, extractLsb'_and_of_allOnes]

theorem decodeWord_and_usedMask {w : Word} {i : Instr} :
    decodeWord (w &&& usedMask i) = .ok i ↔ decodeWord w = .ok i := by
  rw [decodeWord_eq_ok_iff, decodeWord_eq_ok_iff, inRow_and_usedMask, readOperands_and_usedMask]

/-- Settles O36: the decoder reads the masked bits alone, and only opcode and funct choose the row. -/
theorem unusedFieldsAreIgnored : Obligations.UnusedFieldsAreIgnored := by
  refine ⟨fun w v i hw hmask => ?_, fun _ _ _ => decodeWord_same_error, fun _ v i hw hop hfn => ?_⟩
  · rwa [← decodeWord_and_usedMask, ← hmask, decodeWord_and_usedMask]
  · exact ⟨readOperands (cutFields v) i, decodeWord_same_row hw hop hfn, mnemonic_readOperands _ i⟩

/-! ### The illegal words -/

theorem exists_error_iff_isOk {x : Except Reject Instr} : (∃ e, x = .error e) ↔ x.isOk = false := by
  cases x <;> simp [Except.isOk, Except.toBool]

theorem isOk_decodeWord_packR_iff :
    ∀ f : BitVec 6, (decodeWord (packR 0 0 0 0 f)).isOk = false ↔ f ∈ illegalFuncts := by decide

theorem isOk_decodeWord_packI_iff :
    ∀ o : BitVec 6, o ≠ 0#6 → ((decodeWord (packI o 0 0 0)).isOk = false ↔ o ∈ illegalOpcodes) := by decide

theorem decodeWord_register_error_iff {w : Word} (hop : op w = 0#6) :
    (∃ e, decodeWord w = .error e) ↔ fn w ∈ illegalFuncts := by
  obtain ⟨hopcode, -, -, -, -, hfunct⟩ := cutFields_packR 0 0 0 0 (fn w)
  rw [exists_error_iff_isOk, ← isOk_decodeWord_packR_iff,
    isOk_decodeWord_congr (hopcode.trans hop.symm) fun _ => hfunct]

theorem decodeWord_primary_error_iff {w : Word} (hop : op w ≠ 0#6) :
    (∃ e, decodeWord w = .error e) ↔ op w ∈ illegalOpcodes := by
  obtain ⟨hopcode, -⟩ := cutFields_packI (op w) 0 0 0
  rw [exists_error_iff_isOk, ← isOk_decodeWord_packI_iff _ hop,
    isOk_decodeWord_congr hopcode fun h => absurd h hop]

/-- Settles O33: opcode and funct alone decide, so one word for each of the 64 functs and opcodes is looked at. -/
theorem illegalWordsAreExactlyTheListed : Obligations.IllegalWordsAreExactlyTheListed := by
  intro w
  by_cases hop : op w = 0#6
  · have hlegal : 0#6 ∉ illegalOpcodes := by decide
    simp only [decodeWord_register_error_iff hop, hop, hlegal, true_and, false_or]
  · simp only [decodeWord_primary_error_iff hop, hop, false_and, or_false]

end Sys2Proof.Laws
end

section
/-! SUPPORT. Register-format arithmetic, logic and shifts (40_alu_register.md R86 to R97): which words they are, what
each writes and what it leaves. -/

namespace Sys2Proof.Laws

open Sys2Proof.Machine Sys2Proof.Claims
open Encoding (row)

/-! ### The words of a row -/

/-- A row of the funct map takes every word with its opcode and funct, whatever the unused fields hold (R71, R75). -/
theorem registerWord_of_row {f : BitVec 6} {i : Word → Instr} (hrow : ∀ w, row (i w) = (0#6, some f))
    (hread : ∀ w, readOperands (cutFields w) (i w) = i w) : RegisterWord f i := by
  intro w hop hfn
  have hin : InRow (cutFields w) (i w) := by
    rw [InRow, hrow]
    exact ⟨hop, fun _ h => hfn.trans (Option.some.inj h)⟩
  exact decodeWord_eq_ok_iff.mpr ⟨hin, hread w⟩

/-! ### A register write -/

@[simp] theorem y_setX_self (s : State) (d : RegNum) (v : Word) : y (s.setX d v) d = v := by simp [y]

theorem y_setX_of_ne (s : State) {d r : RegNum} (h : r ≠ d) (v : Word) : y (s.setX d v) r = y s r := by
  simp [y, RegFile.get_set_of_ne _ _ _ _ h]

/-- The frame of a register write. -/
theorem onlyRegister_setX (s : State) (d : RegNum) (v : Word) : OnlyRegister s (s.setX d v) d :=
  ⟨⟨rfl, rfl, rfl, rfl⟩, ⟨rfl, rfl⟩, fun _ => rfl, ⟨rfl, rfl⟩, rfl, fun _ h => y_setX_of_ne s h v⟩

/-! ### What each instruction writes -/

section

variable (s : State) (d a b : RegNum) (k : Shamt)

theorem exec_add : exec (.add d a b) s = .next (s.setX d (x s a + x s b)) := rfl

theorem exec_addu : exec (.addu d a b) s = .next (s.setX d (x s a + x s b)) := rfl

theorem exec_sub : exec (.sub d a b) s = .next (s.setX d (x s a - x s b)) := rfl

theorem exec_subu : exec (.subu d a b) s = .next (s.setX d (x s a - x s b)) := rfl

theorem exec_and : exec (.and d a b) s = .next (s.setX d (x s a &&& x s b)) := rfl

theorem exec_or : exec (.or d a b) s = .next (s.setX d (x s a ||| x s b)) := rfl

theorem exec_xor : exec (.xor d a b) s = .next (s.setX d (x s a ^^^ x s b)) := rfl

theorem exec_nor : exec (.nor d a b) s = .next (s.setX d (~~~(x s a ||| x s b))) := rfl

theorem exec_slt : exec (.slt d a b) s = .next (s.setX d (setOnLess (x s a) (x s b))) := rfl

theorem exec_sll : exec (.sll d b k) s = .next (s.setX d (x s b <<< k.toNat)) := rfl

theorem exec_srl : exec (.srl d b k) s = .next (s.setX d (x s b >>> k.toNat)) := rfl

theorem exec_sra : exec (.sra d b k) s = .next (s.setX d ((x s b).sshiftRight k.toNat)) := rfl

end

/-! ### The values as numbers and bits -/

theorem natCast_toNat_sub (u v : Word) : ((u - v).toNat : Int) = ((u.toNat : Int) - (v.toNat : Int)) % 2 ^ 32 := by
  have := v.isLt
  rw [BitVec.toNat_sub]
  omega

theorem getLsbD_nor {j : Nat} (hj : j < 32) (u v : Word) :
    (~~~(u ||| v)).getLsbD j = !(u.getLsbD j || v.getLsbD j) := by
  simp [hj]

theorem toNat_setOnLess_of_lt {u v : Word} (h : u.toInt < v.toInt) : (setOnLess u v).toNat = 1 := by
  rw [setOnLess, if_pos h]; rfl

theorem toNat_setOnLess_of_not_lt {u v : Word} (h : ¬ u.toInt < v.toInt) : (setOnLess u v).toNat = 0 := by
  rw [setOnLess, if_neg h]; rfl

theorem toNat_shiftLeft_eq_mul (v : Word) (n : Nat) : (v <<< n).toNat = v.toNat * 2 ^ n % 2 ^ 32 := by
  rw [BitVec.toNat_shiftLeft, Nat.shiftLeft_eq]

theorem toNat_ushiftRight_eq_div (v : Word) (n : Nat) : (v >>> n).toNat = v.toNat / 2 ^ n := by
  rw [BitVec.toNat_ushiftRight, Nat.shiftRight_eq_div_pow]

/-- The unsigned value of a word is its signed value modulo 2^32. -/
theorem natCast_toNat_eq_toInt_emod (v : Word) : (v.toNat : Int) = v.toInt % 2 ^ 32 := by
  have := v.isLt
  rw [BitVec.toInt_eq_toNat_cond]
  split <;> omega

/-- An arithmetic shift is floor division of the signed value. -/
theorem natCast_toNat_sshiftRight (v : Word) (n : Nat) :
    ((v.sshiftRight n).toNat : Int) = v.toInt / 2 ^ n % 2 ^ 32 := by
  rw [natCast_toNat_eq_toInt_emod, BitVec.toInt_sshiftRight, Int.shiftRight_eq_div_pow]
  norm_cast

/-- Copies of bit 31 enter an arithmetic shift at the left. -/
theorem getLsbD_sshiftRight_of_lt {j : Nat} (hj : j < 32) (v : Word) (n : Nat) :
    (v.sshiftRight n).getLsbD j = if j + n < 32 then v.getLsbD (j + n) else v.getLsbD 31 := by
  rw [BitVec.getLsbD_sshiftRight, BitVec.msb_eq_getLsbD_last, Nat.add_comm n j, decide_eq_false (Nat.not_le.mpr hj),
    Bool.not_false, Bool.true_and]

/-! ### The statements -/

/-- Settles O1: both write one sum. -/
theorem addAndAdduWriteTheSum : Obligations.AddAndAdduWriteTheSum := by
  refine ⟨registerWord_of_row (fun _ => rfl) fun _ => rfl, registerWord_of_row (fun _ => rfl) fun _ => rfl,
    fun s d a b => ?_⟩
  have hsum : (y (s.setX d (x s a + x s b)) d).toNat = ((x s a).toNat + (x s b).toNat) % 2 ^ 32 := by
    rw [y_setX_self, BitVec.toNat_add]
  exact ⟨⟨_, exec_add .., hsum, onlyRegister_setX ..⟩, ⟨_, exec_addu .., hsum, onlyRegister_setX ..⟩⟩

/-- Settles O2: both write one difference. -/
theorem subAndSubuWriteTheDifference : Obligations.SubAndSubuWriteTheDifference := by
  refine ⟨registerWord_of_row (fun _ => rfl) fun _ => rfl, registerWord_of_row (fun _ => rfl) fun _ => rfl,
    fun s d a b => ?_⟩
  have hdifference : ((y (s.setX d (x s a - x s b)) d).toNat : Int) =
      (((x s a).toNat : Int) - ((x s b).toNat : Int)) % 2 ^ 32 := by
    rw [y_setX_self, natCast_toNat_sub]
  exact ⟨⟨_, exec_sub .., hdifference, onlyRegister_setX ..⟩, ⟨_, exec_subu .., hdifference, onlyRegister_setX ..⟩⟩

/-- Settles O3: each bit of the written word is the operation on the operands' bits. -/
theorem bitwiseRegisterOperations : Obligations.BitwiseRegisterOperations := by
  refine ⟨registerWord_of_row (fun _ => rfl) fun _ => rfl, registerWord_of_row (fun _ => rfl) fun _ => rfl,
    registerWord_of_row (fun _ => rfl) fun _ => rfl, registerWord_of_row (fun _ => rfl) fun _ => rfl,
    fun s d a b => ⟨⟨_, exec_and .., onlyRegister_setX .., fun k _ => ?_⟩,
      ⟨_, exec_or .., onlyRegister_setX .., fun k _ => ?_⟩, ⟨_, exec_xor .., onlyRegister_setX .., fun k _ => ?_⟩,
      ⟨_, exec_nor .., onlyRegister_setX .., fun k hk => ?_⟩⟩⟩
  · rw [y_setX_self, BitVec.getLsbD_and]
  · rw [y_setX_self, BitVec.getLsbD_or]
  · rw [y_setX_self, BitVec.getLsbD_xor]
  · rw [y_setX_self, getLsbD_nor hk]

/-- Settles O4: the two sides of the comparison. -/
theorem sltComparesSigned : Obligations.SltComparesSigned := by
  refine ⟨registerWord_of_row (fun _ => rfl) fun _ => rfl,
    fun s d a b => ⟨_, exec_slt .., onlyRegister_setX .., fun hlt => ?_, fun hge => ?_⟩⟩
  · rw [y_setX_self, toNat_setOnLess_of_lt hlt]
  · rw [y_setX_self, toNat_setOnLess_of_not_lt hge]

/-- Settles O5: a shift multiplies or divides by a power of two, and sra divides the signed value. -/
theorem shiftsByShamt : Obligations.ShiftsByShamt := by
  refine ⟨registerWord_of_row (fun _ => rfl) fun _ => rfl, registerWord_of_row (fun _ => rfl) fun _ => rfl,
    registerWord_of_row (fun _ => rfl) fun _ => rfl,
    fun s d b k => ⟨⟨_, exec_sll .., onlyRegister_setX .., ?_⟩, ⟨_, exec_srl .., onlyRegister_setX .., ?_⟩,
      ⟨_, exec_sra .., onlyRegister_setX .., ?_, fun j hj => ?_⟩⟩⟩
  · rw [y_setX_self, toNat_shiftLeft_eq_mul]
  · rw [y_setX_self, toNat_ushiftRight_eq_div]
  · rw [y_setX_self, natCast_toNat_sshiftRight]
  · rw [y_setX_self, getLsbD_sshiftRight_of_lt hj]

end Sys2Proof.Laws
end

section
/-! SUPPORT. Unsigned division (41_muldiv_hilo.md R101): the frame of a write to HI and LO, and the quotient and the
remainder as numbers. -/

namespace Sys2Proof.Laws

open Sys2Proof.Machine Sys2Proof.Claims

/-! ### A write to HI and LO -/

/-- The frame of a write to HI and LO. -/
theorem onlyHiLo_setHi_setLo (s : State) (hi lo : Word) : OnlyHiLo s ((s.setHi hi).setLo lo) :=
  ⟨⟨rfl, rfl, rfl, rfl⟩, ⟨rfl, rfl⟩, fun _ => rfl, rfl, fun _ => rfl⟩

/-! ### What divu writes -/

theorem exec_divu_of_ne_zero {s : State} (a : RegNum) {b : RegNum} (hb : x s b ≠ 0#32) :
    exec (.divu a b) s =
      .next ((s.setHi (unsignedRemainder (x s a) (x s b))).setLo (unsignedQuotient (x s a) (x s b))) :=
  if_neg hb

/-! ### The values as numbers -/

/-- A quotient is at most the dividend, so it fits a word. -/
theorem toNat_unsignedQuotient (u v : Word) : (unsignedQuotient u v).toNat = u.toNat / v.toNat :=
  (BitVec.toNat_ofNat ..).trans <| Nat.mod_eq_of_lt ((Nat.div_le_self ..).trans_lt u.isLt)

/-- A remainder is at most the dividend, so it fits a word. -/
theorem toNat_unsignedRemainder (u v : Word) : (unsignedRemainder u v).toNat = u.toNat % v.toNat :=
  (BitVec.toNat_ofNat ..).trans <| Nat.mod_eq_of_lt ((Nat.mod_le ..).trans_lt u.isLt)

/-! ### The statement -/

/-- Settles O9: quotient and remainder are those of the numbers, where `a = (a / b) * b + a % b`. -/
theorem divuWritesFloorQuotient : Obligations.DivuWritesFloorQuotient := by
  refine ⟨registerWord_of_row (fun _ => rfl) fun _ => rfl,
    fun s a b hb => ⟨_, exec_divu_of_ne_zero a hb, onlyHiLo_setHi_setLo .., ?_⟩⟩
  rw [State.setLo_next_lo, State.setLo_next_hi, State.setHi_next_hi, toNat_unsignedQuotient, toNat_unsignedRemainder]
  exact ⟨rfl, rfl, (Nat.div_add_mod' ..).symm, Nat.mod_lt _ (BitVec.toNat_pos_of_ne_zero hb)⟩

end Sys2Proof.Laws
end

section
/-! SUPPORT. Zero-extended immediates (42_immediate.md R109, R111 to R114): which words the instructions are, what each
writes and what it leaves. -/

namespace Sys2Proof.Laws

open Sys2Proof.Machine Sys2Proof.Claims
open Encoding (row)

/-! ### The words of a row -/

/-- A row of the opcode table without a funct takes every word with its opcode, whatever the unused fields hold (R71,
R74). -/
theorem primaryWord_of_row {o : BitVec 6} {i : Word → Instr} (hrow : ∀ w, row (i w) = (o, none))
    (hread : ∀ w, readOperands (cutFields w) (i w) = i w) : PrimaryWord o i := by
  intro w hop
  have hin : InRow (cutFields w) (i w) := by
    rw [InRow, hrow]
    exact ⟨hop, fun _ h => nomatch h⟩
  exact decodeWord_eq_ok_iff.mpr ⟨hin, hread w⟩

/-! ### The extended immediate -/

@[simp] theorem toNat_zext (k : Imm16) : (zext k).toNat = k.toNat :=
  BitVec.toNat_setWidth_of_le (by decide)

/-- An extended immediate has no bit above 15. -/
theorem getLsbD_zext {j : Nat} (hj : j < 32) (k : Imm16) : (zext k).getLsbD j = (decide (j < 16) && k.getLsbD j) := by
  rw [zext, BitVec.getLsbD_setWidth, decide_eq_true hj, Bool.true_and]
  by_cases hlow : j < 16
  · rw [decide_eq_true hlow, Bool.true_and]
  · rw [decide_eq_false hlow, Bool.false_and, BitVec.getLsbD_of_ge _ _ (Nat.not_lt.mp hlow)]

/-- The mask the source adds to andi takes no bit away: the extended immediate has none above it (R111). -/
theorem and_zext_and_mask (v : Word) (k : Imm16) : (v &&& zext k) &&& 0x0000FFFF#32 = v &&& zext k := by
  have hmask : (0x0000FFFF#32 : Word) = zext (BitVec.allOnes 16) := by decide
  rw [hmask, BitVec.and_assoc, zext, zext, ← BitVec.setWidth_and, BitVec.and_allOnes]

theorem toNat_upper (k : Imm16) : (upper k).toNat = k.toNat * 2 ^ 16 := by
  rw [upper, BitVec.toNat_append, BitVec.toNat_zero, Nat.or_zero, Nat.shiftLeft_eq]

/-! ### What each instruction writes -/

section

variable (s : State) (d a : RegNum) (k : Imm16)

theorem exec_addiu : exec (.addiu d a k) s = .next (s.setX d (x s a + zext k)) := rfl

theorem exec_andi : exec (.andi d a k) s = .next (s.setX d (x s a &&& zext k)) := by
  rw [← and_zext_and_mask]
  rfl

theorem exec_ori : exec (.ori d a k) s = .next (s.setX d (x s a ||| zext k)) := rfl

theorem exec_xori : exec (.xori d a k) s = .next (s.setX d (x s a ^^^ zext k)) := rfl

theorem exec_lui : exec (.lui d k) s = .next (s.setX d (upper k)) := rfl

end

/-! ### The statements -/

/-- Settles O13: the extended immediate has the number of the immediate, and words add modulo 2^32. -/
theorem addiuAddsZeroExtended : Obligations.AddiuAddsZeroExtended := by
  refine ⟨primaryWord_of_row (fun _ => rfl) fun _ => rfl, fun s d a k => ⟨_, exec_addiu .., onlyRegister_setX .., ?_⟩⟩
  rw [y_setX_self, BitVec.toNat_add, toNat_zext]

/-- Settles O14: each bit of the written word is the operation on the bits of the register and the immediate. -/
theorem bitwiseImmediateOperations : Obligations.BitwiseImmediateOperations := by
  refine ⟨primaryWord_of_row (fun _ => rfl) fun _ => rfl, primaryWord_of_row (fun _ => rfl) fun _ => rfl,
    primaryWord_of_row (fun _ => rfl) fun _ => rfl,
    fun s d a k => ⟨⟨_, exec_andi .., onlyRegister_setX .., fun j hj => ?_⟩,
      ⟨_, exec_ori .., onlyRegister_setX .., fun j hj => ?_⟩, ⟨_, exec_xori .., onlyRegister_setX .., fun j hj => ?_⟩⟩⟩
  · rw [y_setX_self, BitVec.getLsbD_and, getLsbD_zext hj]
  · rw [y_setX_self, BitVec.getLsbD_or, getLsbD_zext hj]
  · rw [y_setX_self, BitVec.getLsbD_xor, getLsbD_zext hj]

/-- Settles O15: the decoder reads no rs for lui, and the written word is the immediate times 2^16. -/
theorem luiLoadsTheUpperHalf : Obligations.LuiLoadsTheUpperHalf := by
  refine ⟨primaryWord_of_row (fun _ => rfl) fun _ => rfl, fun s d k => ⟨_, exec_lui .., onlyRegister_setX .., ?_⟩⟩
  rw [y_setX_self, toNat_upper]

end Sys2Proof.Laws
end

section
/-! SUPPORT. lw (43_load_store.md R115, R116): which words it is, the address it reads, what it writes and what it
leaves. -/

namespace Sys2Proof.Laws

open Sys2Proof.Machine Sys2Proof.Claims

/-! ### The address and the written word -/

/-- The address of lw wraps at the top of the address space (R116). -/
theorem toNat_eaZero (s : State) (a : RegNum) (k : Imm16) :
    (s.eaZero a k).toNat = ((x s a).toNat + k.toNat) % 2 ^ 32 := by
  rw [State.eaZero, BitVec.toNat_add, toNat_zext]
  rfl

theorem exec_lw (s : State) (d a : RegNum) (k : Imm16) :
    exec (.lw d a k) s = .next (s.setX d (s.load (s.eaZero a k) 4)) := rfl

/-! ### The statement -/

/-- Settles O16: a word is its number, so the address the statement names is the one lw reads. -/
theorem lwLoadsWithZeroExtendedOffset : Obligations.LwLoadsWithZeroExtendedOffset := by
  refine ⟨primaryWord_of_row (fun _ => rfl) fun _ => rfl,
    fun s d a k ea hea => ⟨_, exec_lw .., ?_, onlyRegister_setX ..⟩⟩
  have haddress : ea = s.eaZero a k := BitVec.eq_of_toNat_eq (hea.trans (toNat_eaZero s a k).symm)
  rw [y_setX_self, haddress]

end Sys2Proof.Laws
end

section
/-! SUPPORT. Branches on equality and the jumps j, jal and jr (44_control.md R122 to R124, R127 to R129): which words they
are, where each goes and what it leaves. -/

namespace Sys2Proof.Laws

open Sys2Proof.Machine Sys2Proof.Claims

/-! ### A write to NEXT.pc -/

@[simp] theorem y_setPc (s : State) (v : Word) (r : RegNum) : y (s.setPc v) r = y s r := rfl

/-- The frame of a write to NEXT.pc. -/
theorem onlyPc_setPc (s : State) (v : Word) : OnlyPc s (s.setPc v) :=
  ⟨⟨rfl, rfl, rfl, rfl⟩, ⟨rfl, rfl⟩, fun _ => rfl, ⟨rfl, rfl⟩, y_setPc s v⟩

/-- The frame of a linking jump: a register write, then a write to NEXT.pc. -/
theorem onlyRegisterAndPc_setX_setPc (s : State) (d : RegNum) (link target : Word) :
    OnlyRegisterAndPc s ((s.setX d link).setPc target) d :=
  ⟨⟨rfl, rfl, rfl, rfl⟩, ⟨rfl, rfl⟩, fun _ => rfl, ⟨rfl, rfl⟩, fun _ h => y_setX_of_ne s h link⟩

/-! ### The targets as numbers -/

/-- The offset of a branch counts words, so its shift is a factor 4 modulo 2^32 (R122). -/
theorem natCast_toNat_branchTarget (s : State) (k : Imm16) :
    ((s.branchTarget k).toNat : Int) = ((s.cur.pc.toNat : Int) + 4 * k.toInt) % 2 ^ 32 := by
  have hsext : ((sext k).toNat : Int) = k.toInt % 2 ^ 32 := by
    rw [natCast_toNat_eq_toInt_emod, sext, BitVec.toInt_signExtend_of_le (by decide)]
  rw [State.branchTarget, BitVec.toNat_add, toNat_shiftLeft_eq_mul]
  omega

/-- The jump keeps the high 4 bits of its own address (R127). -/
theorem toNat_jumpTarget (s : State) (k : Target26) :
    (s.jumpTarget k).toNat = s.cur.pc.toNat / 2 ^ 28 * 2 ^ 28 + k.toNat * 4 := by
  have hpc := s.cur.pc.isLt
  rw [State.jumpTarget, toNat_append, toNat_append, toNat_extract, BitVec.toNat_zero]
  omega

/-- The link wraps at the top of the address space (R128). -/
theorem toNat_pcPlus4 (s : State) : s.pcPlus4.toNat = (s.cur.pc.toNat + 4) % 2 ^ 32 := BitVec.toNat_add ..

/-! ### What each instruction does -/

section

variable (s : State) (a b : RegNum) (k : Imm16) (target : Target26)

theorem exec_beq : exec (.beq a b k) s = branchIf (x s a == x s b) k s := rfl

theorem exec_bne : exec (.bne a b k) s = branchIf (x s a != x s b) k s := rfl

theorem exec_j : exec (.j target) s = .next (s.setPc (s.jumpTarget target)) := rfl

theorem exec_jal :
    exec (.jal target) s = .next ((s.setX 31#5 s.pcPlus4).setPc (s.jumpTarget target)) := rfl

theorem exec_jr : exec (.jr a) s = .next (s.setPc (x s a)) := rfl

end

/-- What a conditional branch does, whatever it tests: the two sides of its test are two conditions on the operands. -/
theorem exists_next_of_branchIf {i : Instr} {s : State} {test : Bool} {k : Imm16} {taken notTaken : Prop}
    (hexec : exec i s = branchIf test k s) (htaken : taken → test = true) (hnot : notTaken → test = false) :
    ∃ t, exec i s = .next t ∧ OnlyPc s t ∧
      (taken → (t.next.pc.toNat : Int) = ((s.cur.pc.toNat : Int) + 4 * k.toInt) % 2 ^ 32) ∧
      (notTaken → SamePc s t) := by
  refine ⟨_, hexec.trans (branchIf_eq ..), onlyPc_setPc .., fun h => ?_, fun h => ?_⟩
  · rw [State.setPc_next_pc, if_pos (htaken h), natCast_toNat_branchTarget]
  · rw [SamePc, State.setPc_next_pc, hnot h, if_neg Bool.false_ne_true]

/-! ### The statements -/

/-- Settles O25: beq and bne are one branch under opposite tests. -/
theorem beqAndBneBranch : Obligations.BeqAndBneBranch :=
  ⟨primaryWord_of_row (fun _ => rfl) fun _ => rfl, primaryWord_of_row (fun _ => rfl) fun _ => rfl,
    fun s a b k => ⟨exists_next_of_branchIf (exec_beq s a b k) beq_iff_eq.mpr beq_eq_false_iff_ne.mpr,
      exists_next_of_branchIf (exec_bne s a b k) bne_iff_ne.mpr bne_eq_false_iff_eq.mpr⟩⟩

/-- Settles O27: both jumps go to one target, and jal's link is a register write before it. -/
theorem jumpsReplaceTheLow28Bits : Obligations.JumpsReplaceTheLow28Bits := by
  refine ⟨primaryWord_of_row (fun _ => rfl) fun _ => rfl, primaryWord_of_row (fun _ => rfl) fun _ => rfl,
    fun s k => ⟨⟨_, exec_j .., onlyPc_setPc .., toNat_jumpTarget s k⟩,
      ⟨_, exec_jal .., onlyRegisterAndPc_setX_setPc .., toNat_jumpTarget s k, ?_⟩⟩⟩
  rw [y_setPc, y_setX_self, toNat_pcPlus4]

/-- Settles O28: NEXT.pc is the register's word as it stands. -/
theorem jrJumpsToRegister : Obligations.JrJumpsToRegister :=
  ⟨registerWord_of_row (fun _ => rfl) fun _ => rfl, fun s a => ⟨_, exec_jr s a, State.setPc_next_pc .., onlyPc_setPc ..⟩⟩

end Sys2Proof.Laws
end

section
/-! SUPPORT. What reset forgets (70_reset_and_hazards.md R153, R154): it reads the configuration alone and keeps it. -/

namespace Sys2Proof.Machine

@[simp] theorem State.resetCommand_config (s : State) : s.resetCommand.config = s.config := rfl

/-- Of the state before it, reset reads the configuration alone (R154). -/
theorem State.resetCommand_congr {s t : State} (h : t.config = s.config) : t.resetCommand = s.resetCommand :=
  congrArg State.resetFrom h

/-- A run keeps the configuration, so reset forgets the run. -/
theorem runSteps_resetCommand (n : Nat) (s : State) : (runSteps n s).resetCommand = s.resetCommand :=
  State.resetCommand_congr (runSteps_config n s)

/-- Reset is idempotent (R154). -/
theorem State.resetCommand_resetCommand (s : State) : s.resetCommand.resetCommand = s.resetCommand :=
  State.resetCommand_congr s.resetCommand_config

/-- Settles O51: reset and every run keep the configuration, which is all that reset reads. -/
theorem resetForgetsTheRun : Obligations.ResetForgetsTheRun := fun s _ n =>
  ⟨s.resetCommand_resetCommand, s.resetCommand_config, State.resetCommand_congr, runSteps_resetCommand n s,
    (runSteps_resetCommand n s.resetCommand).trans s.resetCommand_resetCommand⟩

end Sys2Proof.Machine
end

section
/-! SUPPORT. The encoder (30_encoding.md R68 to R71): the decoder reads back what it writes, and it writes back what the
decoder reads, with zeros in the bits outside the mask. -/

namespace Sys2Proof.Laws

open Sys2Proof.Claims
open Encoding (row)

/-! ### Reading back an encoded instruction -/

theorem inRow_cutFields_encode (i : Instr) : InRow (cutFields (encode i)) i := by
  cases i with
  | j | jal => exact ⟨(cutFields_packJ ..).1, fun _ hf => nomatch hf⟩
  | beq | bne | blez | bgtz | addi | addiu | slti | andi | ori | xori | lui | lb | lh | lw | sb | sh | sw =>
    exact ⟨(cutFields_packI ..).1, fun _ hf => nomatch hf⟩
  | _ =>
    obtain ⟨hopcode, -, -, -, -, hfunct⟩ := cutFields_packR ..
    exact ⟨hopcode, fun _ hf => Option.some.inj hf ▸ hfunct⟩

theorem readOperands_cutFields_encode (i : Instr) : readOperands (cutFields (encode i)) i = i := by
  cases i <;> simp only [readOperands, encode, cutFields_packR, cutFields_packI, cutFields_packJ]

theorem decodeWord_encode (i : Instr) : decodeWord (encode i) = .ok i :=
  decodeWord_eq_ok_iff.mpr ⟨inRow_cutFields_encode i, readOperands_cutFields_encode i⟩

/-- Settles O34: an encoded word lies in its instruction's row and holds its operands in the fields the row reads. -/
theorem decodeReadsBackEncode : Obligations.DecodeReadsBackEncode := fun i rest => by
  rw [decodeBytes_bytesOfWord, decodeWord_encode]
  exact ⟨rfl, rfl⟩

/-! ### Writing back a decoded word -/

/-- A mask clears every field in which it has no bit. -/
theorem extractLsb'_and_of_zero {w m : Word} {k n : Nat} (hm : m.extractLsb' k n = 0#n) :
    (w &&& m).extractLsb' k n = 0#n := by
  rw [BitVec.extractLsb'_and, hm, BitVec.and_zero]

/-- The R-format fields of a word with opcode 0 make up the word. -/
theorem packR_cutFields {w : Word} (hop : w.extractLsb' 26 6 = 0#6) :
    packR (w.extractLsb' 21 5) (w.extractLsb' 16 5) (w.extractLsb' 11 5) (w.extractLsb' 6 5) (w.extractLsb' 0 6) =
      w := by
  have hzero : w.toNat / 2 ^ 26 % 2 ^ 6 = 0 := by rw [← toNat_extract, hop]; rfl
  have := w.isLt
  apply BitVec.eq_of_toNat_eq
  simp only [toNat_packR, toNat_extract]
  omega

/-- The I-format fields of a word make up the word. -/
theorem packI_cutFields (w : Word) :
    packI (w.extractLsb' 26 6) (w.extractLsb' 21 5) (w.extractLsb' 16 5) (w.extractLsb' 0 16) = w := by
  have := w.isLt
  apply BitVec.eq_of_toNat_eq
  simp only [toNat_packI, toNat_extract]
  omega

/-- The J-format fields of a word make up the word. -/
theorem packJ_cutFields (w : Word) : packJ (w.extractLsb' 26 6) (w.extractLsb' 0 26) = w := by
  have := w.isLt
  apply BitVec.eq_of_toNat_eq
  simp only [toNat_packJ, toNat_extract]
  omega

/-- The masked word, cut into the fields of its format, holds the row's own numbers, the operands of `w`, and zeros. -/
theorem encode_readOperands {w : Word} {i : Instr} (hrow : InRow (cutFields w) i) :
    encode (readOperands (cutFields w) i) = w &&& usedMask i := by
  obtain ⟨hopcode, hfunct⟩ := (inRow_and_usedMask w i).mpr hrow
  cases i with
  | j | jal =>
    conv_rhs => rw [← packJ_cutFields (w &&& _)]
    simp only [cutFields, row] at hopcode
    rw [hopcode]
    simp (disch := decide) only [encode, readOperands, cutFields, usedMask, extractLsb'_and_of_allOnes]
  | beq | bne | blez | bgtz | addi | addiu | slti | andi | ori | xori | lui | lb | lh | lw | sb | sh | sw =>
    conv_rhs => rw [← packI_cutFields (w &&& _)]
    simp only [cutFields, row] at hopcode
    rw [hopcode]
    simp (disch := decide) only [encode, readOperands, cutFields, usedMask, extractLsb'_and_of_allOnes,
      extractLsb'_and_of_zero]
  | _ =>
    have hf := hfunct _ rfl
    conv_rhs => rw [← packR_cutFields (w := w &&& _) hopcode]
    simp only [cutFields] at hf
    rw [hf]
    simp (disch := decide) only [encode, readOperands, cutFields, usedMask, extractLsb'_and_of_allOnes,
      extractLsb'_and_of_zero]

/-- Settles O35: the operands of a decoded word are its fields, and a field it does not use is 0 in the masked word. -/
theorem encodeClearsOnlyUnusedBits : Obligations.EncodeClearsOnlyUnusedBits := fun w i h => by
  obtain ⟨hrow, hoperands⟩ := decodeWord_eq_ok_iff.mp h
  rw [← encode_readOperands hrow, hoperands]

/-- Settles O37, each word by running the decoder. -/
theorem sampleWordsDecode : Obligations.SampleWordsDecode := by
  unfold Obligations.SampleWordsDecode
  decide

end Sys2Proof.Laws
end

section
/-! SUPPORT. What one instruction does, said once (40_alu_register.md to 45_system.md): every instruction ends in one of
nine operations, and what it keeps and where it writes follows from which one (10_state.md R20, R21, R31, R32). -/

namespace Sys2Proof.Machine

open Sys2Proof.Claims

/-! ### The operation an instruction ends in -/

/-- The operations an instruction's meaning consists of, each under what the instruction's row says of it. -/
inductive Effect (i : Instr) (s : State) : State → Prop
  | setX {d : RegNum} (v : Word) (hd : destination i = some d) : Effect i s (s.setX d v)
  | setPc (v : Word) (hi : ControlTransfer i) : Effect i s (s.setPc v)
  | link {d : RegNum} (v target : Word) (hd : destination i = some d) (hi : ControlTransfer i) :
      Effect i s ((s.setX d v).setPc target)
  | setHi (v : Word) (hi : WritesHi i) : Effect i s (s.setHi v)
  | setLo (v : Word) (hi : WritesLo i) : Effect i s (s.setLo v)
  | setHiLo (h l : Word) (hHi : WritesHi i) (hLo : WritesLo i) : Effect i s ((s.setHi h).setLo l)
  | store {o : StoreOperands} (ho : storeOperands i = some o) :
      Effect i s (s.store (s.eaSigned o.base o.offset) o.bytes (x s o.source))
  | halt (hi : i = .syscall) : Effect i s (s.enterStop .halt)
  | divideByZero (hi : DividesByZero s i) (hHi : WritesHi i) (hLo : WritesLo i) : Effect i s (s.raise .divideByZero)

/-- The state after an instruction. Every instruction answers a next state (`exec_eq`), so the other two cases never
occur. -/
def State.afterExec (s : State) (i : Instr) : State :=
  match exec i s with
  | .next t => t
  | .fault _ => s
  | .refused _ => s

theorem afterExec_of_next {i : Instr} {s t : State} (h : exec i s = .next t) : s.afterExec i = t := by
  simp [State.afterExec, h]

/-- R32, R145: no instruction faults. -/
theorem exec_eq (i : Instr) (s : State) : exec i s = .next (s.afterExec i) := by
  obtain ⟨t, ht, -⟩ := exec_keeps_config i s
  rw [ht, afterExec_of_next ht]

theorem effect_branchIf {i : Instr} (hi : ControlTransfer i) (taken : Bool) (imm : Imm16) (s : State) :
    ∃ t, branchIf taken imm s = .next t ∧ Effect i s t :=
  ⟨_, branchIf_eq .., .setPc _ hi⟩

theorem effect_store {i : Instr} {s : State} {o : StoreOperands} (ho : storeOperands i = some o)
    (hexec : exec i s = .next (s.store (s.eaSigned o.base o.offset) o.bytes (x s o.source))) :
    ∃ t, exec i s = .next t ∧ Effect i s t :=
  ⟨_, hexec, .store ho⟩

theorem exists_effect (i : Instr) (s : State) : ∃ t, exec i s = .next t ∧ Effect i s t := by
  cases i with
  | beq | bne | blez | bgtz => exact effect_branchIf (by trivial) ..
  | j | jr => exact ⟨_, rfl, .setPc _ trivial⟩
  | jal | jalr => exact ⟨_, rfl, .link _ _ rfl trivial⟩
  | mthi => exact ⟨_, rfl, .setHi _ trivial⟩
  | mtlo => exact ⟨_, rfl, .setLo _ trivial⟩
  | mult | multu => exact ⟨_, rfl, .setHiLo _ _ trivial trivial⟩
  | div rs rt | divu rs rt =>
    by_cases hzero : s.x rt = 0#32
    · exact ⟨_, if_pos hzero, .divideByZero hzero trivial trivial⟩
    · exact ⟨_, if_neg hzero, .setHiLo _ _ trivial trivial⟩
  | sb | sh | sw => exact effect_store rfl rfl
  | syscall => exact ⟨_, rfl, .halt rfl⟩
  | _ => exact ⟨_, rfl, .setX _ rfl⟩

theorem effect_afterExec (i : Instr) (s : State) : Effect i s (s.afterExec i) := by
  obtain ⟨t, ht, heffect⟩ := exists_effect i s
  rwa [afterExec_of_next ht]

/-! ### What it keeps -/

namespace Effect

variable {i : Instr} {s t : State}

theorem sameBase (h : Effect i s t) : SameBase s t := by
  cases h <;> exact ⟨rfl, rfl, rfl, rfl⟩

theorem regs_eq (h : Effect i s t) {r : RegNum} (hr : destination i ≠ some r) : y t r = y s r := by
  cases h with
  | setX v hd | link v target hd => exact Laws.y_setX_of_ne s (fun e => hr (hd.trans (congrArg some e.symm))) v
  | _ => rfl

theorem hi_eq (h : Effect i s t) (hi : ¬ WritesHi i) : t.next.hi = s.next.hi := by
  cases h with
  | setHi | setHiLo | divideByZero => contradiction
  | _ => rfl

theorem lo_eq (h : Effect i s t) (hi : ¬ WritesLo i) : t.next.lo = s.next.lo := by
  cases h with
  | setLo | setHiLo | divideByZero => contradiction
  | _ => rfl

theorem pc_eq (h : Effect i s t) (hi : ¬ ControlTransfer i) : t.next.pc = s.next.pc := by
  cases h with
  | setPc | link => contradiction
  | _ => rfl

theorem mem_eq (h : Effect i s t) (hi : storeOperands i = none) : t.mem = s.mem := by
  cases h with
  | store ho => exact nomatch hi.symm.trans ho
  | _ => rfl

theorem sameRun (h : Effect i s t) (hsyscall : i ≠ .syscall) (hdivide : ¬ DividesByZero s i) : SameRun s t := by
  cases h with
  | halt | divideByZero => contradiction
  | _ => exact ⟨rfl, rfl⟩

end Effect

/-! ### Stores and stops -/

theorem afterExec_of_storeOperands {i : Instr} {o : StoreOperands} (h : storeOperands i = some o) (s : State) :
    s.afterExec i = s.store (s.eaSigned o.base o.offset) o.bytes (x s o.source) := by
  cases i with
  | sb | sh | sw => obtain rfl := Option.some.inj h; rfl
  | _ => exact nomatch h

theorem afterExec_syscall (s : State) : s.afterExec .syscall = s.enterStop .halt := rfl

theorem afterExec_of_dividesByZero {i : Instr} {s : State} (h : DividesByZero s i) :
    s.afterExec i = s.raise .divideByZero := by
  cases i with
  | div | divu => exact afterExec_of_next (if_pos h)
  | _ => exact h.elim

end Sys2Proof.Machine
end

section
/-! SUPPORT. What a step does, said once (10_state.md R35), and the invariant of the states between steps (R28, R43). -/

namespace Sys2Proof.Machine

open Sys2Proof.Claims

/-! ### The state after a step -/

/-- R32, R145: every step answers a next state. -/
theorem step_eq (s : State) : step s = .next s.afterStep := by
  obtain ⟨t, ht, -⟩ := step_keeps_config s
  rw [ht, afterStep_of_next ht]

theorem afterStep_of_decode {s : State} {i : Instr} (hr : s.runFlag = true) (hd : decodeWord s.fetch = .ok i) :
    s.afterStep = (s.begin.afterExec i).commit :=
  afterStep_of_next (by rw [step_of_decode hr hd, exec_eq]; rfl)

theorem afterStep_of_illegal {s : State} {e : Reject} (hr : s.runFlag = true) (hd : decodeWord s.fetch = .error e) :
    s.afterStep = (s.begin.raise .illegalInstruction).commit :=
  afterStep_of_next (step_of_illegal hr hd)

theorem afterStep_of_stopped {s : State} (hr : s.runFlag = false) : s.afterStep = s :=
  afterStep_of_next (step_of_stopped hr)

/-! ### The invariant -/

theorem Effect.mem_wf {i : Instr} {s t : State} (h : Effect i s t) (hs : Memory.wf s.mem) : Memory.wf t.mem := by
  cases h with
  | store => exact memWrite_wf hs ..
  | _ => exact hs

theorem Effect.mem_mapped {i : Instr} {s t : State} (h : Effect i s t) (hs : Memory.mapped s.config.regions s.mem) :
    Memory.mapped s.config.regions t.mem := by
  cases h with
  | store => exact memWrite_mapped_regions hs _ _ _
  | _ => exact hs

/-- A stop from an instruction records a reason other than NONE and EXTERNAL_STOP, so its pc and word may be any. -/
theorem State.stopAgrees_enterStop (s : State) {reason : StopReason} (hnone : reason ≠ .none)
    (hexternal : reason ≠ .externalStop) : (s.enterStop reason).stopAgrees :=
  ⟨⟨nofun, (absurd · hnone)⟩, (absurd · (not_or.mpr ⟨hnone, hexternal⟩))⟩

theorem Effect.stopAgrees {i : Instr} {s t : State} (h : Effect i s t) (hs : s.stopAgrees) : t.stopAgrees := by
  cases h with
  | halt | divideByZero => exact State.stopAgrees_enterStop _ nofun nofun
  | _ => exact hs

/-- The commit makes NEXT and CURRENT equal and lets the word go, so the rest of the invariant is about what the
Executor leaves. -/
theorem State.inv_commit {t : State} (hconfig : t.config.wf = true) (hmem : Memory.wf t.mem)
    (hmapped : Memory.mapped t.config.regions t.mem) (hstop : t.stopAgrees) : t.commit.Inv :=
  ⟨hconfig, hmem, hmapped, rfl, rfl, hstop⟩

theorem State.inv_afterStep {s : State} (h : s.Inv) : s.afterStep.Inv := by
  have ⟨hconfig, hmem, hmapped, _, _, hstop⟩ := h
  cases hr : s.runFlag with
  | false => rwa [afterStep_of_stopped hr]
  | true =>
    cases hd : decodeWord s.fetch with
    | error e =>
      rw [afterStep_of_illegal hr hd]
      exact State.inv_commit hconfig hmem hmapped (State.stopAgrees_enterStop _ nofun nofun)
    | ok i =>
      rw [afterStep_of_decode hr hd]
      have heffect := effect_afterExec i s.begin
      obtain ⟨-, hsame, -⟩ := heffect.sameBase
      refine State.inv_commit ?_ (heffect.mem_wf hmem) ?_ (heffect.stopAgrees hstop)
      · rwa [hsame]
      · rw [hsame]
        exact heffect.mem_mapped hmapped

/-- Settles O47: each operation of an instruction keeps what the commit does not restore. -/
theorem stepKeepsInv : Obligations.StepKeepsInv := fun s t h hstep => by
  rw [← afterStep_of_next hstep]
  exact State.inv_afterStep h

end Sys2Proof.Machine
end

section
/-! SUPPORT. Multiply, signed divide and the HI/LO transfers (41_muldiv_hilo.md R98 to R107, 60_exceptions.md R139): what
each writes, as exact numbers. -/

namespace Sys2Proof.Laws

open Sys2Proof.Machine Sys2Proof.Claims

/-! ### Integers as words -/

theorem natCast_toNat_ofInt (n : Nat) (z : Int) : ((BitVec.ofInt n z).toNat : Int) = z % 2 ^ n := by
  have hpos : (0 : Int) < 2 ^ n := by positivity
  rw [BitVec.toNat_ofInt, Nat.cast_pow, Nat.cast_ofNat, Int.toNat_of_nonneg (Int.emod_nonneg _ hpos.ne')]

theorem toInt_ofInt_of_mem_range {z : Int} (hlow : -2 ^ 31 ≤ z) (hhigh : z < 2 ^ 31) : (BitVec.ofInt 32 z).toInt = z :=
  BitVec.toInt_ofInt_eq_self (by decide) hlow hhigh

/-! ### Products -/

/-- The two halves of a product make it up (R98). -/
theorem toNat_highWord_lowWord (p : DoubleWord) : (highWord p).toNat * 2 ^ 32 + (lowWord p).toNat = p.toNat := by
  have := p.isLt
  rw [highWord, lowWord, BitVec.extractLsb'_toNat, BitVec.extractLsb'_toNat, Nat.shiftRight_eq_div_pow,
    Nat.shiftRight_eq_div_pow]
  omega

/-- A product of two words is below 2^64 (R99). -/
theorem toNat_unsignedProduct (u v : Word) : (unsignedProduct u v).toNat = u.toNat * v.toNat :=
  have hlt : u.toNat * v.toNat < 2 ^ 32 * 2 ^ 32 := Nat.mul_lt_mul'' u.isLt v.isLt
  (BitVec.toNat_ofNat ..).trans (Nat.mod_eq_of_lt hlt)

theorem lowWord_eq_setWidth (p : DoubleWord) : lowWord p = p.setWidth 32 := by
  apply BitVec.eq_of_toNat_eq
  rw [lowWord, BitVec.extractLsb'_toNat, BitVec.toNat_setWidth, Nat.shiftRight_zero]

theorem lowWord_unsignedProduct (u v : Word) : lowWord (unsignedProduct u v) = u * v := by
  rw [lowWord_eq_setWidth, unsignedProduct, BitVec.setWidth_ofNat_of_le (by decide), BitVec.ofNat_mul,
    BitVec.ofNat_toNat, BitVec.ofNat_toNat, BitVec.setWidth_eq, BitVec.setWidth_eq]

theorem setWidth_ofInt_doubleWord (z : Int) : (BitVec.ofInt 64 z).setWidth 32 = BitVec.ofInt 32 z := by
  have hdouble := natCast_toNat_ofInt 64 z
  have hword := natCast_toNat_ofInt 32 z
  apply BitVec.eq_of_toNat_eq
  rw [BitVec.toNat_setWidth]
  omega

/-- The low half does not depend on the signedness. -/
theorem lowWord_signedProduct (u v : Word) : lowWord (signedProduct u v) = u * v := by
  rw [lowWord_eq_setWidth, signedProduct, setWidth_ofInt_doubleWord, BitVec.ofInt_mul, BitVec.ofInt_toInt,
    BitVec.ofInt_toInt]

/-! ### Truncated quotients -/

/-- Only -2^31 / -1 leaves the range of a signed word (R100). -/
theorem tdiv_mem_range {u v : Int} (hlow : -2 ^ 31 ≤ u) (hhigh : u < 2 ^ 31) (hcorner : ¬(u = -2 ^ 31 ∧ v = -1)) :
    -2 ^ 31 ≤ u.tdiv v ∧ u.tdiv v < 2 ^ 31 := by
  have habs : (u.tdiv v).natAbs = u.natAbs / v.natAbs := Int.natAbs_tdiv u v
  have hle := Nat.div_le_self u.natAbs v.natAbs
  by_cases hone : v.natAbs ≤ 1
  · obtain rfl | rfl | rfl : v = 0 ∨ v = 1 ∨ v = -1 := by omega
    · rw [Int.tdiv_zero]; omega
    · rw [Int.tdiv_one]; omega
    · rw [Int.tdiv_neg, Int.tdiv_one]; omega
  · have hhalf : u.natAbs / v.natAbs ≤ u.natAbs / 2 := Nat.div_le_div_left (by omega) (by decide)
    omega

theorem toInt_signedQuotient {u v : Word} (hcorner : ¬(u = 0x80000000#32 ∧ v = 0xFFFFFFFF#32)) :
    (signedQuotient u v).toInt = u.toInt.tdiv v.toInt := by
  have hcorner' : ¬(u.toInt = -2 ^ 31 ∧ v.toInt = -1) := fun ⟨hu, hv⟩ =>
    hcorner ⟨BitVec.eq_of_toInt_eq hu, BitVec.eq_of_toInt_eq hv⟩
  obtain ⟨hlow, hhigh⟩ := tdiv_mem_range u.le_toInt u.toInt_lt hcorner'
  exact toInt_ofInt_of_mem_range hlow hhigh

theorem natAbs_tmod_lt (u : Int) {v : Int} (hv : v ≠ 0) : (u.tmod v).natAbs < v.natAbs := by
  rw [Int.natAbs_tmod]
  exact Nat.mod_lt _ (Int.natAbs_pos.mpr hv)

theorem toInt_ne_zero {v : Word} (hv : v ≠ 0#32) : v.toInt ≠ 0 := fun h => hv (BitVec.eq_of_toInt_eq h)

theorem toInt_signedRemainder (u : Word) {v : Word} (hv : v ≠ 0#32) :
    (signedRemainder u v).toInt = u.toInt.tmod v.toInt := by
  have hlt := natAbs_tmod_lt u.toInt (toInt_ne_zero hv)
  have hlow : -2 ^ 31 ≤ v.toInt := v.le_toInt
  have hhigh : v.toInt < 2 ^ 31 := v.toInt_lt
  rw [signedRemainder, Int.mul_comm, ← Int.tmod_def]
  exact toInt_ofInt_of_mem_range (by omega) (by omega)

/-- A truncated remainder has the dividend's sign or is 0. -/
theorem tmod_eq_zero_or_pos_iff (u v : Int) : u.tmod v = 0 ∨ (0 < u.tmod v ↔ 0 < u) := by
  have hsign := Int.sign_tmod u v
  split at hsign
  · exact .inl (Int.sign_eq_zero_iff_zero.mp hsign)
  · exact .inr (by rw [← Int.sign_eq_one_iff_pos, hsign, Int.sign_eq_one_iff_pos])

/-! ### What each instruction does -/

section

variable (s : State) (r a b : RegNum)

theorem exec_mult : exec (.mult a b) s =
    .next ((s.setHi (highWord (signedProduct (x s a) (x s b)))).setLo (lowWord (signedProduct (x s a) (x s b)))) := rfl

theorem exec_multu : exec (.multu a b) s =
    .next ((s.setHi (highWord (unsignedProduct (x s a) (x s b)))).setLo (lowWord (unsignedProduct (x s a) (x s b)))) :=
  rfl

theorem exec_mfhi : exec (.mfhi r) s = .next (s.setX r s.cur.hi) := rfl

theorem exec_mflo : exec (.mflo r) s = .next (s.setX r s.cur.lo) := rfl

theorem exec_mthi : exec (.mthi r) s = .next (s.setHi (x s r)) := rfl

theorem exec_mtlo : exec (.mtlo r) s = .next (s.setLo (x s r)) := rfl

end

theorem exec_div_of_ne_zero {s : State} (a : RegNum) {b : RegNum} (hb : x s b ≠ 0#32) :
    exec (.div a b) s = .next ((s.setHi (signedRemainder (x s a) (x s b))).setLo (signedQuotient (x s a) (x s b))) :=
  if_neg hb

theorem onlyHiLo_setHi (s : State) (v : Word) : OnlyHiLo s (s.setHi v) := onlyHiLo_setHi_setLo s v s.next.lo

theorem onlyHiLo_setLo (s : State) (v : Word) : OnlyHiLo s (s.setLo v) := onlyHiLo_setHi_setLo s s.next.hi v

/-! ### The statements -/

/-- Settles O6: HI and LO are the halves of one exact product, and both low halves are the product of the words. -/
theorem multiplyIsExactTo64Bits : Obligations.MultiplyIsExactTo64Bits := by
  refine ⟨registerWord_of_row (fun _ => rfl) fun _ => rfl, registerWord_of_row (fun _ => rfl) fun _ => rfl,
    fun s a b => ⟨⟨_, exec_mult .., onlyHiLo_setHi_setLo .., ?_⟩, ⟨_, exec_multu .., onlyHiLo_setHi_setLo .., ?_⟩,
      ⟨_, _, exec_mult .., exec_multu .., ?_⟩⟩⟩
  · rw [State.setLo_next_hi, State.setLo_next_lo, State.setHi_next_hi, toNat_highWord_lowWord]
    exact natCast_toNat_ofInt 64 _
  · rw [State.setLo_next_hi, State.setLo_next_lo, State.setHi_next_hi, toNat_highWord_lowWord, toNat_unsignedProduct]
  · rw [State.setLo_next_lo, State.setLo_next_lo, lowWord_signedProduct, lowWord_unsignedProduct]

/-- Settles O7: a word made from an integer is that integer modulo 2^32. -/
theorem divWritesTruncatedQuotient : Obligations.DivWritesTruncatedQuotient :=
  ⟨registerWord_of_row (fun _ => rfl) fun _ => rfl, fun _ a _ hb => ⟨_, exec_div_of_ne_zero a hb,
    onlyHiLo_setHi_setLo .., natCast_toNat_ofInt 32 _, natCast_toNat_ofInt 32 _⟩⟩

/-- Settles O8: outside the corner no word wraps, so the identity is that of the truncated division of the integers. -/
theorem divIdentityAndOverflowCorner : Obligations.DivIdentityAndOverflowCorner := by
  refine fun s a b hb => ⟨_, exec_div_of_ne_zero a hb, fun hcorner => ?_, fun ⟨ha, hb⟩ => ?_⟩
  · rw [State.setLo_next_lo, State.setLo_next_hi, State.setHi_next_hi, toInt_signedQuotient hcorner,
      toInt_signedRemainder _ hb]
    exact ⟨(Int.tdiv_mul_add_tmod ..).symm, natAbs_tmod_lt _ (toInt_ne_zero hb), tmod_eq_zero_or_pos_iff ..⟩
  · rw [State.setLo_next_lo, State.setLo_next_hi, State.setHi_next_hi, ha, hb]
    decide

/-- What both divides do with a zero divisor. -/
theorem exists_next_of_dividesByZero {i : Instr} {s : State} (h : DividesByZero s i) :
    ∃ t, exec i s = .next t ∧ t.next.hi = 0#32 ∧ t.next.lo = 0#32 ∧ t.runFlag = false ∧
      t.stop = ⟨.divideByZero, s.cur.pc, s.word⟩ ∧ SameBase s t ∧ SameMemory s t ∧ SamePc s t ∧ SameRegs s t := by
  refine ⟨s.raise .divideByZero, ?_, rfl, rfl, rfl, rfl, ⟨rfl, rfl, rfl, rfl⟩, fun _ => rfl, rfl, fun _ => rfl⟩
  rw [exec_eq, afterExec_of_dividesByZero h]

/-- Settles O10: both divides raise one condition. -/
theorem divideByZeroStopsTheRun : Obligations.DivideByZeroStopsTheRun := fun _ a b h =>
  ⟨exists_next_of_dividesByZero (i := .div a b) h, exists_next_of_dividesByZero (i := .divu a b) h⟩

/-- Settles O11: each is one write, of the other side's value in CURRENT. -/
theorem hiLoTransfers : Obligations.HiLoTransfers :=
  ⟨registerWord_of_row (fun _ => rfl) fun _ => rfl, registerWord_of_row (fun _ => rfl) fun _ => rfl,
    registerWord_of_row (fun _ => rfl) fun _ => rfl, registerWord_of_row (fun _ => rfl) fun _ => rfl,
    fun _ _ => ⟨⟨_, exec_mfhi .., y_setX_self .., onlyRegister_setX ..⟩,
      ⟨_, exec_mflo .., y_setX_self .., onlyRegister_setX ..⟩, ⟨_, exec_mthi .., rfl, rfl, onlyHiLo_setHi ..⟩,
      ⟨_, exec_mtlo .., rfl, rfl, onlyHiLo_setLo ..⟩⟩⟩

end Sys2Proof.Laws
end

section
/-! SUPPORT. Sign-extended immediates and offsets (42_immediate.md R108, R110, 43_load_store.md R115, R117, R118), branches
on the sign, jalr and labels (44_control.md R125, R126, R130, 30_encoding.md R82). -/

namespace Sys2Proof.Laws

open Sys2Proof.Machine Sys2Proof.Claims

/-! ### The sign-extended immediate -/

theorem toInt_sext (k : Imm16) : (sext k).toInt = k.toInt := BitVec.toInt_signExtend_of_le (by decide)

/-- Adding a sign-extended immediate adds the signed number modulo 2^32 (R108, R115). -/
theorem natCast_toNat_add_sext (u : Word) (k : Imm16) :
    ((u + sext k).toNat : Int) = ((u.toNat : Int) + k.toInt) % 2 ^ 32 := by
  have hsext := natCast_toNat_eq_toInt_emod (sext k)
  rw [toInt_sext] at hsext
  rw [BitVec.toNat_add]
  omega

theorem natCast_toNat_eaSigned (s : State) (a : RegNum) (k : Imm16) :
    ((s.eaSigned a k).toNat : Int) = (((x s a).toNat : Int) + k.toInt) % 2 ^ 32 :=
  natCast_toNat_add_sext (x s a) k

/-! ### What each instruction does -/

section

variable (s : State) (d a : RegNum) (k : Imm16)

theorem exec_addi : exec (.addi d a k) s = .next (s.setX d (x s a + sext k)) := rfl

theorem exec_slti : exec (.slti d a k) s = .next (s.setX d (setOnLess (x s a) (sext k))) := rfl

theorem exec_lb :
    exec (.lb d a k) s = .next (s.setX d (sextByte ((s.load (s.eaSigned a k) 1).extractLsb' 0 8))) := rfl

theorem exec_lh :
    exec (.lh d a k) s = .next (s.setX d (sextHalf ((s.load (s.eaSigned a k) 2).extractLsb' 0 16))) := rfl

theorem exec_blez : exec (.blez a k) s = branchIf (atMostZero (x s a)) k s := rfl

theorem exec_bgtz : exec (.bgtz a k) s = branchIf (aboveZero (x s a)) k s := rfl

theorem exec_jalr : exec (.jalr d a) s = .next ((s.setX d s.pcPlus4).setPc (x s a)) := rfl

end

/-! ### The statements about each instruction -/

/-- Settles O12: the extended immediate has the signed number of the immediate. -/
theorem addiAndSltiSignExtend : Obligations.AddiAndSltiSignExtend := by
  refine ⟨primaryWord_of_row (fun _ => rfl) fun _ => rfl, primaryWord_of_row (fun _ => rfl) fun _ => rfl,
    fun s d a k => ⟨⟨_, exec_addi .., onlyRegister_setX .., ?_⟩,
      ⟨_, exec_slti .., onlyRegister_setX .., fun hlt => ?_, fun hge => ?_⟩⟩⟩
  · rw [y_setX_self, natCast_toNat_add_sext]
  · rw [y_setX_self, toNat_setOnLess_of_lt (by rwa [toInt_sext])]
  · rw [y_setX_self, toNat_setOnLess_of_not_lt (by rwa [toInt_sext])]

/-- Settles O17: the address the statement names is the one the load reads, and sign extension keeps the
signed number. -/
theorem lbAndLhLoadSignExtended : Obligations.LbAndLhLoadSignExtended := by
  refine ⟨primaryWord_of_row (fun _ => rfl) fun _ => rfl, primaryWord_of_row (fun _ => rfl) fun _ => rfl,
    fun s d a k ea hea => ?_⟩
  obtain rfl : ea = s.eaSigned a k :=
    BitVec.eq_of_toNat_eq (Int.ofNat.inj (hea.trans (natCast_toNat_eaSigned s a k).symm))
  refine ⟨⟨_, exec_lb .., ?_, onlyRegister_setX ..⟩, ⟨_, exec_lh .., ?_, onlyRegister_setX ..⟩⟩
  · rw [y_setX_self, sextByte, BitVec.toInt_signExtend_of_le (by decide)]
  · rw [y_setX_self, sextHalf, BitVec.toInt_signExtend_of_le (by decide)]

theorem atMostZero_eq_true {u : Word} (h : u.toInt ≤ 0) : atMostZero u = true := decide_eq_true h

theorem atMostZero_eq_false {u : Word} (h : 0 < u.toInt) : atMostZero u = false := decide_eq_false (Int.not_le.mpr h)

theorem aboveZero_eq_true {u : Word} (h : 0 < u.toInt) : aboveZero u = true := decide_eq_true h

theorem aboveZero_eq_false {u : Word} (h : u.toInt ≤ 0) : aboveZero u = false := decide_eq_false (Int.not_lt.mpr h)

/-- Settles O26: blez and bgtz are one branch under opposite tests of the sign. -/
theorem blezAndBgtzBranch : Obligations.BlezAndBgtzBranch :=
  ⟨primaryWord_of_row (fun _ => rfl) fun _ => rfl, primaryWord_of_row (fun _ => rfl) fun _ => rfl,
    fun s a k => ⟨exists_next_of_branchIf (exec_blez s a k) atMostZero_eq_true atMostZero_eq_false,
      exists_next_of_branchIf (exec_bgtz s a k) aboveZero_eq_true aboveZero_eq_false⟩⟩

/-- Settles O29: the link goes to NEXT, so the target is read from CURRENT as it was. -/
theorem jalrJumpsToTheOldValue : Obligations.JalrJumpsToTheOldValue := by
  refine ⟨registerWord_of_row (fun _ => rfl) fun _ => rfl,
    fun s d a => ⟨_, exec_jalr .., State.setPc_next_pc .., ?_, onlyRegisterAndPc_setX_setPc ..⟩⟩
  rw [y_setPc, y_setX_self, toNat_pcPlus4]

/-! ### Labels -/

/-- The field of a label in reach counts the words to it, as a signed number (R82). -/
theorem four_mul_toInt_branchField {a l : Word} {d : Int} (hd : d % 4 = 0) (hlow : -2 ^ 17 ≤ d) (hhigh : d ≤ 2 ^ 17 - 4)
    (hl : (l.toNat : Int) = ((a.toNat : Int) + d) % 2 ^ 32) : 4 * (branchField a l).toInt = d := by
  have hfield : (branchField a l).toNat = (l - a).toNat / 2 ^ 2 % 2 ^ 16 := by
    rw [branchField, toNat_extract, toNat_ushiftRight_eq_div, pow_zero, Nat.div_one]
  have hdifference := natCast_toNat_sub l a
  rw [BitVec.toInt_eq_toNat_cond]
  split <;> omega

theorem branchTarget_branchField {s : State} {l : Word} {d : Int} (hd : d % 4 = 0) (hlow : -2 ^ 17 ≤ d)
    (hhigh : d ≤ 2 ^ 17 - 4) (hl : (l.toNat : Int) = ((s.cur.pc.toNat : Int) + d) % 2 ^ 32) :
    s.branchTarget (branchField s.cur.pc l) = l := by
  have htarget := natCast_toNat_branchTarget s (branchField s.cur.pc l)
  rw [four_mul_toInt_branchField hd hlow hhigh hl, ← hl] at htarget
  exact BitVec.eq_of_toNat_eq (Int.ofNat.inj htarget)

theorem jumpTarget_jumpField {s : State} {l : Word} (haligned : l.toNat % 4 = 0)
    (hhigh : l.toNat / 2 ^ 28 = s.cur.pc.toNat / 2 ^ 28) : s.jumpTarget (jumpField l) = l := by
  apply BitVec.eq_of_toNat_eq
  rw [toNat_jumpTarget, jumpField, toNat_extract]
  omega

theorem exists_next_pc_eq_of_taken {i : Instr} {s : State} {test : Bool} {k : Imm16} {l : Word}
    (htarget : s.branchTarget k = l) (hexec : exec i s = branchIf test k s) (htest : test = true) :
    ∃ t, exec i s = .next t ∧ t.next.pc = l := by
  refine ⟨_, hexec.trans (branchIf_eq ..), ?_⟩
  rw [State.setPc_next_pc, if_pos htest, htarget]

/-- Settles O30: the four branches share one target and the two jumps another, and the label's field gives the label. -/
theorem labelsReachTheirTargets : Obligations.LabelsReachTheirTargets := by
  refine fun s a b l => ⟨fun d hd hlow hhigh hl => ?_, fun haligned hhigh => ?_⟩
  · have htarget := branchTarget_branchField hd hlow hhigh hl
    exact ⟨fun h => exists_next_pc_eq_of_taken htarget (exec_beq ..) (beq_iff_eq.mpr h),
      fun h => exists_next_pc_eq_of_taken htarget (exec_bne ..) (bne_iff_ne.mpr h),
      fun h => exists_next_pc_eq_of_taken htarget (exec_blez ..) (atMostZero_eq_true h),
      fun h => exists_next_pc_eq_of_taken htarget (exec_bgtz ..) (aboveZero_eq_true h)⟩
  · have htarget := jumpTarget_jumpField haligned hhigh
    exact ⟨⟨_, exec_j .., htarget⟩, ⟨_, exec_jal .., htarget⟩⟩

end Sys2Proof.Laws
end

section
/-! SUPPORT. Stores and reads (20_memory.md R50 to R56, 43_load_store.md R119 to R121): the bytes a write changes, the bytes
a read is made of, and reads of a word just written. -/

namespace Sys2Proof.Machine

open Sys2Proof.Claims

/-! ### The bytes a store changes -/

/-- A stored byte lies in the region of the store's address, so it is mapped. -/
theorem regionOf_ne_none_of_stored {s : State} {ea a : Word} {n : Nat} (h : Stored s ea n a) :
    regionOf s.config.regions a ≠ none := by
  obtain ⟨r, hr, hle, -, hlimit⟩ := h
  obtain ⟨hmem, hbase, -⟩ := regionOf_mem hr
  exact fun hnone => regionOf_none.mp hnone r hmem ⟨by omega, hlimit⟩

theorem readByte_store_of_stored {s : State} (hm : Memory.wf s.mem) {ea a : Word} {n : Nat} (h : Stored s ea n a)
    (v : Word) : (s.store ea n v).readByte a = v.extractLsb' (8 * (a.toNat - ea.toNat)) 8 := by
  rw [State.readByte_eq, State.store_config, State.store_mem, memWrite_get hm]
  have hmapped := regionOf_ne_none_of_stored h
  obtain ⟨r, hr, hrange⟩ := h
  rw [hr]
  split
  · contradiction
  · exact if_pos hrange

theorem readByte_store_of_not_stored {s : State} (hm : Memory.wf s.mem) {ea a : Word} {n : Nat}
    (h : ¬ Stored s ea n a) (v : Word) : (s.store ea n v).readByte a = s.readByte a := by
  rw [State.readByte_eq, State.readByte_eq, State.store_config, State.store_mem, memWrite_get hm]
  cases hr : regionOf s.config.regions ea with
  | none => rfl
  | some r => simp only [if_neg fun hrange => h ⟨r, hr, hrange⟩]

theorem storesBytes_store {s : State} (hm : Memory.wf s.mem) (ea : Word) (n : Nat) (v : Word) :
    StoresBytes s (s.store ea n v) ea n v :=
  fun _ => ⟨fun h => readByte_store_of_stored hm h v, fun h => readByte_store_of_not_stored hm h v⟩

/-- The frame of a store. -/
theorem onlyMemory_store (s : State) (ea : Word) (n : Nat) (v : Word) : OnlyMemory s (s.store ea n v) :=
  ⟨⟨rfl, rfl, rfl, rfl⟩, ⟨rfl, rfl⟩, ⟨rfl, rfl⟩, rfl, fun _ => rfl⟩

section

variable (s : State) (b a : RegNum) (k : Imm16)

theorem exec_sb : exec (.sb b a k) s = .next (s.store (s.eaSigned a k) 1 (x s b)) := rfl

theorem exec_sh : exec (.sh b a k) s = .next (s.store (s.eaSigned a k) 2 (x s b)) := rfl

theorem exec_sw : exec (.sw b a k) s = .next (s.store (s.eaSigned a k) 4 (x s b)) := rfl

end

/-- Settles O18: the three are one store, of 1, 2 and 4 bytes. -/
theorem storesWriteLittleEndianBytes : Obligations.StoresWriteLittleEndianBytes :=
  ⟨Laws.primaryWord_of_row (fun _ => rfl) fun _ => rfl, Laws.primaryWord_of_row (fun _ => rfl) fun _ => rfl,
    Laws.primaryWord_of_row (fun _ => rfl) fun _ => rfl,
    fun s _ a k => ⟨Laws.natCast_toNat_eaSigned s a k,
      ⟨_, exec_sb .., onlyMemory_store .., fun hm => storesBytes_store hm _ _ _⟩,
      ⟨_, exec_sh .., onlyMemory_store .., fun hm => storesBytes_store hm _ _ _⟩,
      ⟨_, exec_sw .., onlyMemory_store .., fun hm => storesBytes_store hm _ _ _⟩⟩⟩

theorem State.load_one_low_byte (s : State) (a : Word) : (s.load a 1).extractLsb' 0 8 = s.readByte a :=
  (byte_of_shifted (s.load a 1) 0).symm

/-- Settles O19: the byte at the store's own address is a stored one, and lb reads that address again. -/
theorem storeByteThenLoadByte : Obligations.StoreByteThenLoadByte := by
  refine fun s b a d k r hm hr => ⟨_, _, exec_sb .., Laws.exec_lb .., ?_⟩
  have hstored : Stored s (s.eaSigned a k) 1 (s.eaSigned a k) :=
    ⟨r, hr, le_rfl, Nat.lt_succ_self _, (regionOf_mem hr).2.2⟩
  have hea : (s.store (s.eaSigned a k) 1 (x s b)).eaSigned a k = s.eaSigned a k := rfl
  rw [Laws.y_setX_self, hea, State.load_one_low_byte, readByte_store_of_stored hm hstored, sextByte,
    BitVec.toInt_signExtend_of_le (by decide), Nat.sub_self, Nat.mul_zero]

/-! ### The bytes a read is made of -/

/-- Settles O20: byte k of a gathered word is the stored byte up to the limit. -/
theorem memReadAssemblesLittleEndian : Obligations.MemReadAssemblesLittleEndian := by
  intro s a n k _ hk
  rw [State.load]
  cases hr : regionOf s.config.regions a with
  | none => rw [memRead_unmapped hr, BitVec.extractLsb'_zero]
  | some r => simp only [memRead_mapped hr, gather_byte, hk, true_and]

/-- A word is its four bytes (R55). -/
theorem eq_of_bytes {u v : Word} (h : ∀ j, j < 4 → u.extractLsb' (8 * j) 8 = v.extractLsb' (8 * j) 8) : u = v := by
  rw [← Laws.wordOfBytes_bytes u, ← Laws.wordOfBytes_bytes v]
  have h0 := h 0 (by decide)
  have h1 := h 1 (by decide)
  have h2 := h 2 (by decide)
  have h3 := h 3 (by decide)
  rw [h0, h1, h2, h3]

/-- The bytes of a piece of a word, zero-extended: those of the word, then zeros. -/
theorem byte_setWidth_extractLsb' (v : Word) (k : Nat) {n j : Nat} (hj : j < 4) :
    ((v.extractLsb' (8 * k) (8 * n)).setWidth 32).extractLsb' (8 * j) 8 =
      if j < n then v.extractLsb' (8 * (k + j)) 8 else 0#8 := by
  apply BitVec.eq_of_getLsbD_eq
  intro l hl
  have hword : 8 * j + l < 32 := by omega
  split
  next hjn =>
    simp [hl, hword, show 8 * j + l < 8 * n by omega, Nat.mul_add, Nat.add_assoc]
  next hjn =>
    simp [hl, show ¬ 8 * j + l < 8 * n by omega]

/-! ### Reading a word just written -/

/-- Two memories with the same bytes read the same (R50). -/
theorem gather_congr {m m' : Memory} {limit a n : Nat} (h : ∀ b, a ≤ b → b < a + n → m.get b = m'.get b) :
    gather m limit a n = gather m' limit a n := by
  induction n generalizing a with
  | zero => rfl
  | succ n ih =>
    simp only [gather]
    rw [h a le_rfl (by omega), ih fun b hle hlt => h b (by omega) (by omega)]

theorem memRead_congr {rs : List Region} {m m' : Memory} {a : Word} {n : Nat}
    (h : ∀ b, a.toNat ≤ b → b < a.toNat + n → m.get b = m'.get b) : memRead rs m a n = memRead rs m' a n := by
  cases hr : regionOf rs a with
  | none => rw [memRead_unmapped hr, memRead_unmapped hr]
  | some r => rw [memRead_mapped hr, memRead_mapped hr, gather_congr h]

/-- A read inside a word just written in one region of a map of disjoint regions sees the word's own bits (R56). -/
theorem memRead_memWrite {rs : List Region} (hrs : rs.Pairwise fun r q => r.disjoint q = true) {m : Memory}
    (hm : Memory.wf m) {a v : Word} {r : Region} (hr : regionOf rs a = some r) (hlimit : a.toNat + 3 ≤ r.limit.toNat)
    {k n : Nat} (hn : 0 < n) (hkn : k + n ≤ 4) :
    memRead rs (memWrite rs m a 4 v) (a + BitVec.ofNat 32 k) n = (v.extractLsb' (8 * k) (8 * n)).setWidth 32 := by
  have htop := r.limit.isLt
  obtain ⟨hmem, hbase, -⟩ := regionOf_mem hr
  have haddress : (a + BitVec.ofNat 32 k).toNat = a.toNat + k := by
    rw [BitVec.toNat_add, BitVec.toNat_ofNat]
    omega
  have hregion : regionOf rs (a + BitVec.ofNat 32 k) = some r :=
    (regionOf_eq_some_iff hrs).mpr ⟨hmem, by omega, by omega⟩
  rw [memRead_mapped hregion, haddress]
  refine eq_of_bytes fun j hj => ?_
  rw [gather_byte, byte_setWidth_extractLsb' v k hj, memWrite_get hm, hr]
  by_cases hjn : j < n
  · rw [if_pos (by omega), if_pos hjn]
    simp only
    rw [if_pos (by omega), show a.toNat + k + j - a.toNat = k + j by omega]
  · rw [if_neg (by omega), if_neg hjn]

theorem memRead_memWrite_word {rs : List Region} (hrs : rs.Pairwise fun r q => r.disjoint q = true) {m : Memory}
    (hm : Memory.wf m) {a v : Word} {r : Region} (hr : regionOf rs a = some r) (hlimit : a.toNat + 3 ≤ r.limit.toNat) :
    memRead rs (memWrite rs m a 4 v) a 4 = v := by
  have hread := memRead_memWrite hrs hm (v := v) hr hlimit (k := 0) (n := 4) (by decide) (by decide)
  simpa using hread

/-- Settles O22: word, byte and halfword reads are one read inside the stored word. -/
theorem narrowReadsSeeAStoredWord : Obligations.NarrowReadsSeeAStoredWord := by
  intro s a v r hc hm hr hlimit
  have hdisjoint := Config.pairwise_disjoint_of_wf hc
  exact ⟨memRead_memWrite_word hdisjoint hm hr hlimit,
    fun k hk => memRead_memWrite hdisjoint hm hr hlimit (n := 1) (by decide) (by omega),
    fun k hk => memRead_memWrite hdisjoint hm hr hlimit (n := 2) (by decide) (by omega)⟩

/-- Settles O24: the commit keeps memory, so the next fetch reads the word just written. -/
theorem nextFetchSeesAStore : Obligations.NextFetchSeesAStore := by
  intro s b a k r hinv hrun hd hr hlimit
  obtain ⟨hc, hm, -⟩ := hinv
  refine ⟨_, step_eq s, ?_⟩
  rw [afterStep_of_decode hrun hd, afterExec_of_next (exec_sw ..)]
  exact memRead_memWrite_word (Config.pairwise_disjoint_of_wf hc) hm hr hlimit

/-! ### The loaded program -/

/-- Word `i` from the next address on is word `i + 1` from this one on. -/
theorem add_four_add_offset (a : Word) (i : Nat) :
    a + 4#32 + BitVec.ofNat 32 (4 * i) = a + BitVec.ofNat 32 (4 * (i + 1)) := by
  rw [BitVec.add_assoc, ← BitVec.ofNat_add, Nat.mul_succ, Nat.add_comm]

/-- In a region that holds the whole program each word reads back: the words after it lie above it (R158). -/
theorem memRead_loadWords {rs : List Region} (hrs : rs.Pairwise fun r q => r.disjoint q = true) {r : Region}
    (hr : r ∈ rs) {ws : List Word} {m : Memory} (hm : Memory.wf m) {a : Word} (hbase : r.base.toNat ≤ a.toNat)
    (hfits : a.toNat + 4 * ws.length ≤ r.limit.toNat + 1) {i : Nat} {w : Word} (hw : ws[i]? = some w) :
    memRead rs (loadWords rs m a ws) (a + BitVec.ofNat 32 (4 * i)) 4 = w := by
  have htop := r.limit.isLt
  induction ws generalizing m a i with
  | nil => exact nomatch hw
  | cons w₀ ws ih =>
    simp only [List.length_cons] at hfits
    rw [loadWords]
    cases i with
    | zero =>
      obtain rfl := Option.some.inj hw
      have hregion : regionOf rs a = some r := (regionOf_eq_some_iff hrs).mpr ⟨hr, hbase, by omega⟩
      rw [Nat.mul_zero, BitVec.add_zero, ← memRead_memWrite_word hrs hm (v := w₀) hregion (by omega)]
      refine memRead_congr fun c hle hlt => ?_
      have hc : (BitVec.ofNat 32 c).toNat = c := by rw [BitVec.toNat_ofNat]; omega
      rw [memRead_memWrite_word hrs hm hregion (by omega), ← hc]
      refine loadWords_get_other (memWrite_wf hm ..) _ _ ws fun i k hi hk heq => ?_
      have := congrArg BitVec.toNat heq
      simp only [BitVec.toNat_add, BitVec.toNat_ofNat] at this
      omega
    | succ i =>
      have hi : i < ws.length := by simpa using (List.getElem?_eq_some_iff.mp hw).1
      have hnext : (a + 4#32).toNat = a.toNat + 4 := by
        rw [BitVec.toNat_add, BitVec.toNat_ofNat]
        omega
      rw [← add_four_add_offset]
      exact ih (memWrite_wf hm ..) (by omega) (by omega) hw

/-- Settles O52: a program that fits lies in one region of a map of disjoint regions. -/
theorem loaderPlacesEveryWord : Obligations.LoaderPlacesEveryWord := by
  intro c i w hc hfits hw
  simp only [Config.programFits, List.any_eq_true, Bool.and_eq_true, decide_eq_true_eq, BitVec.le_def] at hfits
  obtain ⟨r, hr, ⟨hbase, -⟩, hlength⟩ := hfits
  exact memRead_loadWords (Config.pairwise_disjoint_of_wf hc) hr Memory.wf_nil hbase hlength hw

/-- Settles O50: reset writes each field by its rule, and memory by the loader alone. -/
theorem resetValues : Obligations.ResetValues := fun c =>
  ⟨RegFile.get_replicate_zero, rfl, rfl, rfl, rfl, rfl, rfl, rfl, rfl,
    fun _ => readByte_resetFrom_of_not_program c, fun hc hfits i w => loaderPlacesEveryWord c i w hc hfits, rfl⟩

end Sys2Proof.Machine
end

section
/-! SUPPORT. Steps (10_state.md R20, R26, R31 to R35, 45_system.md R132 to R134): where an instruction writes, how a step
advances the pc and the counter, and what stops the run. -/

namespace Sys2Proof.Machine

open Sys2Proof.Claims

/-! ### Every instruction -/

/-- Settles O40: `State.afterExec` and `State.afterStep` are those next states. -/
theorem everyInstructionAnswersNext : Obligations.EveryInstructionAnswersNext :=
  ⟨fun i s => ⟨_, exec_eq i s, (effect_afterExec i s).sameBase⟩, fun s => ⟨_, step_eq s⟩⟩

theorem storeOperands_bytes {i : Instr} {o : StoreOperands} (h : storeOperands i = some o) :
    o.bytes = 1 ∨ o.bytes = 2 ∨ o.bytes = 4 := by
  cases i with
  | sb => obtain rfl := Option.some.inj h; exact .inl rfl
  | sh => obtain rfl := Option.some.inj h; exact .inr (.inl rfl)
  | sw => obtain rfl := Option.some.inj h; exact .inr (.inr rfl)
  | _ => exact nomatch h

theorem writes_only_register {i : Instr} (h : (destination i).isSome) :
    ¬ WritesHi i ∧ ¬ WritesLo i ∧ storeOperands i = none := by
  cases i with
  | jr | j | beq | bne | blez | bgtz | syscall | mthi | mtlo | mult | multu | div | divu | sb | sh | sw =>
    exact nomatch h
  | _ => exact ⟨not_false, not_false, rfl⟩

theorem writes_only_memory {i : Instr} (h : (storeOperands i).isSome) : ¬ WritesHi i ∧ ¬ WritesLo i := by
  cases i with
  | sb | sh | sw => exact ⟨not_false, not_false⟩
  | _ => exact nomatch h

/-- Settles O41: the instruction's one operation writes what its row names, and no row names two. -/
theorem atMostOneWritePerInstruction : Obligations.AtMostOneWritePerInstruction := by
  intro i s
  have heffect := effect_afterExec i s
  refine ⟨_, exec_eq i s, fun _ => heffect.regs_eq, heffect.hi_eq, heffect.lo_eq, heffect.mem_eq, fun o ho => ?_,
    writes_only_register, writes_only_memory⟩
  rw [afterExec_of_storeOperands ho]
  exact ⟨storeOperands_bytes ho, rfl, fun hm => storesBytes_store hm _ _ _⟩

/-- Settles O31: the decoder reads no field of syscall, and its meaning is the one stop. -/
theorem syscallHalts : Obligations.SyscallHalts :=
  ⟨Laws.registerWord_of_row (fun _ => rfl) fun _ => rfl,
    fun s => ⟨s.enterStop .halt, rfl, rfl, rfl, ⟨rfl, rfl, rfl, rfl⟩, fun _ => rfl, ⟨rfl, rfl⟩, rfl, fun _ => rfl⟩⟩

/-! ### One step -/

/-- Settles O38: the state the Executor starts from is the one the statement writes out. -/
theorem stepRunsTheDecodedInstruction : Obligations.StepRunsTheDecodedInstruction := by
  intro s i hrun hd t ht
  have hbegin : exec i s.begin = .next t := ht
  rw [step_of_decode hrun hd, hbegin]
  rfl

/-- Settles O39: without the RunFlag the step answers the state it is given. -/
theorem stepWhileStoppedDoesNothing : Obligations.StepWhileStoppedDoesNothing := fun _ => step_of_stopped

theorem raise_illegal_begin_next {s : State} (h : s.next = s.cur) :
    (s.begin.raise .illegalInstruction).next = s.cur := by
  have hnext : (s.begin.raise .illegalInstruction).next = { s.next with pc := s.cur.pc } := rfl
  rw [hnext, h]

/-- Settles O32: the condition takes back the preset of NEXT.pc, so the commit leaves CURRENT as it was. -/
theorem illegalWordStopsTheRun : Obligations.IllegalWordStopsTheRun := by
  intro s e hrun hnext hd
  have hcommitted := raise_illegal_begin_next hnext
  exact ⟨_, step_of_illegal hrun hd, hcommitted, hcommitted, fun _ => rfl, rfl, rfl, rfl, rfl, rfl⟩

/-- Settles O43: only a branch or jump writes over the preset. -/
theorem pcAdvancesByFour : Obligations.PcAdvancesByFour := by
  intro s i hrun hd hi
  refine ⟨_, step_eq s, ?_⟩
  rw [afterStep_of_decode hrun hd, State.commit_cur, (effect_afterExec i s.begin).pc_eq hi]
  exact BitVec.toNat_add ..

/-- Settles O60: the step commits what addi writes to register 0, and register 0 is read as it is stored. -/
theorem registerZeroIsOrdinary : Obligations.RegisterZeroIsOrdinary := by
  refine ⟨fun s a k hrun hd => ⟨_, step_eq s, ?_⟩, fun f v => ⟨RegFile.get_set_self f 0#5 v, rfl, rfl⟩⟩
  have hwritten : x s.afterStep 0#5 = x s a + sext k := by
    rw [afterStep_of_decode hrun hd, afterExec_of_next (Laws.exec_addi ..)]
    exact Laws.y_setX_self ..
  rw [hwritten, Laws.natCast_toNat_add_sext]

/-! ### What stops the run -/

/-- What a step on a decoded word does to the RunFlag and the stop record: the two causes, and otherwise nothing. -/
theorem afterStep_run_of_decode {s : State} {i : Instr} (hrun : s.runFlag = true) (hd : decodeWord s.fetch = .ok i) :
    (s.afterStep.runFlag = false ↔ i = .syscall ∨ DividesByZero s i) ∧
    (i = .syscall → s.afterStep.stop.reason.code = 1) ∧ (DividesByZero s i → s.afterStep.stop.reason.code = 3) ∧
    (s.afterStep.runFlag = true → s.afterStep.stop = s.stop) := by
  rw [afterStep_of_decode hrun hd, State.commit_runFlag, State.commit_stop]
  by_cases hsyscall : i = .syscall
  · subst hsyscall
    rw [afterExec_syscall]
    exact ⟨iff_of_true rfl (.inl rfl), fun _ => rfl, False.elim, nofun⟩
  · by_cases hdivide : DividesByZero s i
    · rw [afterExec_of_dividesByZero (s := s.begin) hdivide]
      exact ⟨iff_of_true rfl (.inr hdivide), (absurd · hsyscall), fun _ => rfl, nofun⟩
    · obtain ⟨hflag, hstop⟩ := (effect_afterExec i s.begin).sameRun hsyscall hdivide
      rw [hflag, hstop]
      exact ⟨iff_of_false (ne_true_of_eq_false · hrun) (not_or.mpr ⟨hsyscall, hdivide⟩), (absurd · hsyscall),
        (absurd · hdivide), fun _ => rfl⟩

/-- Settles O44: an illegal word stops, and a decoded one only as a syscall or a divide by zero. -/
theorem stopCausesAreExactlyTheListed : Obligations.StopCausesAreExactlyTheListed := by
  refine ⟨fun s hrun => ⟨_, step_eq s, ?_⟩, fun s hstopped => ⟨s, step_of_stopped hstopped, hstopped, rfl⟩⟩
  cases hd : decodeWord s.fetch with
  | error e =>
    rw [afterStep_of_illegal hrun hd]
    exact ⟨iff_of_true rfl (.inl ⟨e, rfl⟩), fun _ => rfl, nofun, nofun, nofun⟩
  | ok i =>
    simp only [reduceCtorEq, exists_false, false_or, false_imp_iff, true_and, Except.ok.injEq, exists_eq_left']
    exact afterStep_run_of_decode hrun hd

/-! ### The counter -/

theorem afterStep_count {s : State} (hrun : s.runFlag = true) : s.afterStep.count = s.count + 1 := by
  cases hd : decodeWord s.fetch with
  | error e => rw [afterStep_of_illegal hrun hd]; rfl
  | ok i =>
    obtain ⟨-, -, hcount, -⟩ := (effect_afterExec i s.begin).sameBase
    rw [afterStep_of_decode hrun hd, State.commit_count, hcount]
    rfl

theorem runSteps_count (n : Nat) (s : State) : (runSteps n s).count ≤ s.count + n ∧
    ((runSteps n s).runFlag = true → (runSteps n s).count = s.count + n) := by
  induction n generalizing s with
  | zero => exact ⟨le_rfl, fun _ => rfl⟩
  | succ n ih =>
    cases hrun : s.runFlag with
    | false =>
      rw [runSteps_of_stopped hrun]
      exact ⟨Nat.le_add_right .., fun h => nomatch hrun.symm.trans h⟩
    | true =>
      obtain ⟨hle, heq⟩ := ih s.afterStep
      rw [afterStep_count hrun, Nat.add_assoc, Nat.add_comm 1 n] at hle heq
      rw [runSteps_succ hrun]
      exact ⟨hle, heq⟩

/-- Settles O45, by induction on the number of steps. -/
theorem counterCountsEveryStep : Obligations.CounterCountsEveryStep :=
  ⟨fun s hrun => ⟨_, step_eq s, afterStep_count hrun⟩, fun s n => runSteps_count n s⟩

end Sys2Proof.Machine
end

section
/-! SUPPORT. Runs (10_state.md R36, R37, 70_reset_and_hazards.md R174): how they compose, where they end, and the run of
zeroed memory. -/

namespace Sys2Proof.Machine

/-! ### Composition and ends -/

theorem runSteps_add (m n : Nat) (s : State) : runSteps (m + n) s = runSteps n (runSteps m s) := by
  induction m generalizing s with
  | zero => rw [Nat.zero_add]; rfl
  | succ m ih =>
    cases hrun : s.runFlag with
    | false => simp only [runSteps_of_stopped hrun]
    | true => rw [Nat.succ_add, runSteps_succ hrun, runSteps_succ hrun, ih]

/-- Settles O53, by induction on the first number of steps. -/
theorem runComposes : Obligations.RunComposes := fun s m n =>
  ⟨runSteps_add m n s, rfl, fun hstopped => runSteps_of_stopped hstopped n⟩

theorem runToCompletion_eq_some_iff {n : Nat} {s t : State} :
    runToCompletion n s = some t ↔ runSteps n s = t ∧ t.runFlag = false := by
  rw [runToCompletion_eq]
  split
  next hrun => exact iff_of_false nofun fun ⟨h, hstopped⟩ => ne_true_of_eq_false hstopped (h ▸ hrun)
  next hstopped =>
    rw [Option.some.injEq]
    exact ⟨fun h => ⟨h, h ▸ Bool.eq_false_of_not_eq_true hstopped⟩, And.left⟩

theorem endsIn_iff {s t : State} : EndsIn s t ↔ ∃ n, runSteps n s = t ∧ t.runFlag = false :=
  exists_congr fun _ => runToCompletion_eq_some_iff

/-- Two runs that both end are continued by each other's number of steps, which changes neither end. -/
theorem eq_of_runSteps_stopped {s t u : State} {m n : Nat} (ht : runSteps m s = t) (hu : runSteps n s = u)
    (htstop : t.runFlag = false) (hustop : u.runFlag = false) : t = u :=
  calc t = runSteps n (runSteps m s) := by rw [ht, runSteps_of_stopped htstop]
    _ = runSteps m (runSteps n s) := by rw [← runSteps_add, ← runSteps_add, Nat.add_comm]
    _ = u := by rw [hu, runSteps_of_stopped hustop]

/-- Settles O54: sim's answer is run's, and a stopped state is run no further. -/
theorem endOfRunIsUnique : Obligations.EndOfRunIsUnique := by
  refine fun s t u => ⟨endsIn_iff, fun ht hu => ?_⟩
  obtain ⟨m, ht, htstop⟩ := endsIn_iff.mp ht
  obtain ⟨n, hu, hustop⟩ := endsIn_iff.mp hu
  exact eq_of_runSteps_stopped ht hu htstop hustop

/-! ### Zeroed memory -/

theorem gather_nil (limit a n : Nat) : gather [] limit a n = 0#32 := by
  induction n generalizing a with
  | zero => rfl
  | succ n ih => simp [gather, ih, Memory.get, Memory.fill]

theorem fetch_of_zeroed {s : State} (h : s.mem = []) : s.fetch = 0#32 := by
  rw [State.fetch, State.load, h]
  cases hr : regionOf s.config.regions s.cur.pc with
  | none => exact memRead_unmapped hr ..
  | some r => rw [memRead_mapped hr, gather_nil]

/-- What `n` steps of `sll $0,$0,0` leave: the pc and the counter have moved, in both copies, and nothing else. -/
def State.advance (s : State) (n : Nat) : State :=
  { s with
    cur  := { s.cur with pc := s.cur.pc + BitVec.ofNat 32 (4 * n) }
    next := { s.cur with pc := s.cur.pc + BitVec.ofNat 32 (4 * n) }
    count := s.count + n }

theorem State.advance_zero {s : State} (h : s.next = s.cur) : s.advance 0 = s := by
  have hpc : s.cur.pc + BitVec.ofNat 32 (4 * 0) = s.cur.pc := BitVec.add_zero _
  calc s.advance 0 = { s with next := s.cur } := by simp only [State.advance, hpc, Nat.add_zero]
    _ = s := congrArg (fun next => { s with next := next }) h.symm

theorem State.advance_advance (s : State) (m n : Nat) : (s.advance m).advance n = s.advance (m + n) := by
  have hpc : s.cur.pc + BitVec.ofNat 32 (4 * m) + BitVec.ofNat 32 (4 * n) =
      s.cur.pc + BitVec.ofNat 32 (4 * (m + n)) := by
    rw [BitVec.add_assoc, ← BitVec.ofNat_add, Nat.mul_add]
  simp only [State.advance, hpc, Nat.add_assoc]

/-- Writing back what a register of NEXT holds changes nothing. -/
theorem State.setX_self (s : State) (r : RegNum) : s.setX r (RegFile.get s.next.regs r) = s := by
  have hregs : RegFile.set s.next.regs r (RegFile.get s.next.regs r) = s.next.regs := Vector.set_getElem_self ..
  rw [State.setX, RegFile.write_ordinary, hregs]

theorem commit_begin {s : State} (hnext : s.next = s.cur) (hword : s.word = 0#32) : s.begin.commit = s.advance 1 := by
  have hcommit : s.begin.commit =
      { s with
        cur  := { s.next with pc := s.cur.pc + 4#32 }
        next := { s.next with pc := s.cur.pc + 4#32 }
        count := s.count + 1
        word := 0#32 } := rfl
  rw [hcommit, hnext, ← hword]
  rfl

theorem afterStep_of_zeroed {s : State} (hrun : s.runFlag = true) (hnext : s.next = s.cur) (hmem : s.mem = [])
    (hword : s.word = 0#32) : s.afterStep = s.advance 1 := by
  have hd : decodeWord s.fetch = .ok (.sll 0 0 0) := by rw [fetch_of_zeroed hmem]; decide
  have hexec : s.begin.afterExec (.sll 0 0 0) = s.begin := by
    have hzero : Claims.x s.begin 0 <<< (0 : Shamt).toNat = RegFile.get s.begin.next.regs 0 := by
      rw [State.begin_eq, State.beginWith_next_regs, hnext]
      exact BitVec.shiftLeft_zero _
    rw [afterExec_of_next (Laws.exec_sll ..), hzero, State.setX_self]
  rw [afterStep_of_decode hrun hd, hexec, commit_begin hnext hword]

theorem runSteps_of_zeroed {s : State} (hrun : s.runFlag = true) (hnext : s.next = s.cur) (hmem : s.mem = [])
    (hword : s.word = 0#32) (n : Nat) : runSteps n s = s.advance n := by
  induction n generalizing s with
  | zero => exact (State.advance_zero hnext).symm
  | succ n ih =>
    rw [runSteps_succ hrun, afterStep_of_zeroed hrun hnext hmem hword, ih (s := s.advance 1) hrun rfl hmem hword,
      State.advance_advance, Nat.add_comm]

/-- Settles O55: every step executes `sll $0,$0,0`, which writes register 0 back, and the machine still runs. -/
theorem zeroedMemoryRunsForever : Obligations.ZeroedMemoryRunsForever := by
  intro s n hrun hnext hmem hword
  have hsteps := runSteps_of_zeroed hrun hnext hmem hword n
  refine ⟨hsteps, ?_⟩
  rw [runToCompletion_eq, hsteps]
  exact if_pos hrun

end Sys2Proof.Machine
end

section
/-! SUPPORT. The host's commands (70_reset_and_hazards.md R153 to R168): the invariant under each, what a stopped machine
keeps, the patches, the explicit stop and the memory dump. -/

namespace Sys2Proof.Machine

open Sys2Proof.Claims

/-! ### The invariant -/

theorem State.inv_resetFrom {c : Config} (hc : c.wf = true) : (State.resetFrom c).Inv :=
  ⟨hc, resetFrom_mem_wf c, loadWords_mapped (m := []) (List.forall_mem_nil _) _ _, rfl, rfl,
    ⟨iff_of_true rfl rfl, fun _ => ⟨rfl, rfl⟩⟩⟩

/-- Settles O46: reset under the default configuration is reset under a well-formed one. -/
theorem resetSatisfiesInv : Obligations.ResetSatisfiesInv := State.inv_resetFrom (c := Config.default) (by decide)

theorem State.inv_runSteps {s : State} (h : s.Inv) (n : Nat) : (runSteps n s).Inv := by
  induction n generalizing s with
  | zero => exact h
  | succ n ih =>
    cases hrun : s.runFlag with
    | false => rwa [runSteps_of_stopped hrun]
    | true =>
      rw [runSteps_succ hrun]
      exact ih (State.inv_afterStep h)

theorem State.inv_externalStop {s : State} (h : s.Inv) : s.externalStop.Inv := by
  have ⟨hconfig, hmem, hmapped, hnext, hword, _⟩ := h
  unfold State.externalStop
  split
  · exact ⟨hconfig, hmem, hmapped, hnext, hword, ⟨⟨nofun, nofun⟩, fun _ => ⟨rfl, rfl⟩⟩⟩
  · exact h

theorem State.inv_patchMem {s : State} (h : s.Inv) (a v : Word) : (s.patchMem a v).Inv := by
  obtain ⟨hconfig, hmem, hmapped, hrest⟩ := h
  exact ⟨hconfig, memWrite_wf hmem .., memWrite_mapped_regions hmapped _ _ _, hrest⟩

/-- A patch of a register, HI or LO writes both copies, so they stay equal. -/
theorem State.inv_of_patched {s : State} (h : s.Inv) {cur next : ArchState} (heq : next = cur) :
    ({ s with cur := cur, next := next } : State).Inv := by
  obtain ⟨hconfig, hmem, hmapped, -, hrest⟩ := h
  exact ⟨hconfig, hmem, hmapped, heq, hrest⟩

theorem perform_inv (c : ShellCommand) {s : State} (h : s.Inv) : (c.perform s).1.Inv := by
  have ⟨hconfig, _, _, hnext, _⟩ := h
  cases c with
  | sim fuel =>
    rw [perform_sim_state, runToCompletion_eq]
    split
    · exact h
    · exact State.inv_runSteps h fuel
  | run n => exact State.inv_runSteps h n
  | reset | load => exact State.inv_resetFrom hconfig
  | input | high | low => exact State.inv_of_patched h (by rw [hnext])
  | memoryPatch => exact State.inv_patchMem h ..
  | explicitStop => exact State.inv_externalStop h
  | rdump | mdump | print | help | quit => exact h

/-- Settles O48: a rejected command changes nothing, and every effect keeps the invariant. -/
theorem hostCommandsKeepInv : Obligations.HostCommandsKeepInv := by
  intro c s h
  unfold shell
  split
  · exact perform_inv c h
  · exact h

/-! ### While STOPPED -/

theorem perform_sim_of_stopped {s : State} (hstopped : s.runFlag = false) (fuel : Nat) :
    ((ShellCommand.sim fuel).perform s).1 = s := by
  rw [perform_sim_state, runToCompletion_eq, runSteps_of_stopped hstopped]
  split <;> rfl

theorem externalStop_of_stopped {s : State} (hstopped : s.runFlag = false) : s.externalStop = s :=
  if_neg (ne_true_of_eq_false hstopped)

/-- What no command but reset and load changes while STOPPED. -/
def State.runState (s : State) : Bool × StopRecord × Word × Nat := (s.runFlag, s.stop, s.cur.pc, s.count)

theorem perform_runState_of_stopped {c : ShellCommand} {s : State} (hstopped : s.runFlag = false) (hreset : c ≠ .reset)
    (hload : ∀ image, c ≠ .load image) : (c.perform s).1.runState = s.runState := by
  cases c with
  | sim fuel => rw [perform_sim_of_stopped hstopped]
  | run n => exact congrArg State.runState (runSteps_of_stopped hstopped n)
  | explicitStop => exact congrArg State.runState (externalStop_of_stopped hstopped)
  | reset => contradiction
  | load image => exact absurd rfl (hload image)
  | _ => rfl

/-- Settles O56: a stopped machine runs no step and is stopped no further, and no patch touches the run state. -/
theorem onlyResetLeavesStopped : Obligations.OnlyResetLeavesStopped := by
  intro c s hstopped hreset hload
  have hsame := shell_keeps State.runState (perform_runState_of_stopped hstopped hreset hload)
  simp only [State.runState, Prod.mk.injEq, hstopped] at hsame
  exact hsame

/-! ### Patches and the explicit stop -/

theorem shell_of_accepted {c : ShellCommand} (h : c.accepted = true) (s : State) : shell c s = c.perform s := if_pos h

theorem shell_of_not_accepted {c : ShellCommand} (h : ¬ c.accepted = true) (s : State) : shell c s = (s, .rejected) :=
  if_neg h

section

variable {reg val start stop addr : Nat}

theorem accepted_input_iff : (ShellCommand.input reg val).accepted = true ↔ reg < 32 ∧ val < 2 ^ 32 := by
  rw [ShellCommand.accepted, Bool.and_eq_true, decide_eq_true_iff, decide_eq_true_iff]

theorem accepted_high_iff : (ShellCommand.high val).accepted = true ↔ val < 2 ^ 32 := decide_eq_true_iff

theorem accepted_low_iff : (ShellCommand.low val).accepted = true ↔ val < 2 ^ 32 := decide_eq_true_iff

theorem accepted_mdump_iff : (ShellCommand.mdump start stop).accepted = true ↔ start < 2 ^ 32 ∧ stop < 2 ^ 32 := by
  rw [ShellCommand.accepted, Bool.and_eq_true, decide_eq_true_iff, decide_eq_true_iff]

theorem accepted_memoryPatch_iff :
    (ShellCommand.memoryPatch addr val).accepted = true ↔ addr < 2 ^ 32 ∧ val < 2 ^ 32 := by
  rw [ShellCommand.accepted, Bool.and_eq_true, decide_eq_true_iff, decide_eq_true_iff]

end

theorem toNat_ofNat_word {val : Nat} (h : val < 2 ^ 32) : (BitVec.ofNat 32 val).toNat = val := by
  rw [BitVec.toNat_ofNat, Nat.mod_eq_of_lt h]

theorem toNat_ofNat_regNum {reg : Nat} (h : reg < 32) : (BitVec.ofNat 5 reg).toNat = reg := by
  rw [BitVec.toNat_ofNat, Nat.mod_eq_of_lt h]

theorem get_patched (f : RegFile) {reg val : Nat} (hval : val < 2 ^ 32) :
    (RegFile.get (RegFile.set f (BitVec.ofNat 5 reg) (BitVec.ofNat 32 val)) (BitVec.ofNat 5 reg)).toNat = val := by
  rw [RegFile.get_set_self, toNat_ofNat_word hval]

theorem get_not_patched (f : RegFile) {reg : Nat} (hreg : reg < 32) (v : Word) {q : RegNum} (hq : q.toNat ≠ reg) :
    RegFile.get (RegFile.set f (BitVec.ofNat 5 reg) v) q = RegFile.get f q :=
  RegFile.get_set_of_ne _ _ _ _ fun h => hq (h ▸ toNat_ofNat_regNum hreg)

/-- Settles O57: a command in range is carried out, on both copies at once, and one out of range is rejected. -/
theorem hostPatches : Obligations.HostPatches := by
  intro s reg val
  refine ⟨fun hreg hval => ?_, fun hval => ?_, fun hval => ?_, fun hreg hval => ?_, fun hout => ?_, fun hval => ?_⟩
  · exact ⟨s.patchX (BitVec.ofNat 5 reg) (BitVec.ofNat 32 val),
      shell_of_accepted (accepted_input_iff.mpr ⟨hreg, hval⟩) s, get_patched _ hval, get_patched _ hval,
      fun q hq => ⟨get_not_patched _ hreg _ hq, get_not_patched _ hreg _ hq⟩, rfl⟩
  · exact ⟨s.patchHi (BitVec.ofNat 32 val), shell_of_accepted (accepted_high_iff.mpr hval) s, toNat_ofNat_word hval,
      toNat_ofNat_word hval, rfl⟩
  · exact ⟨s.patchLo (BitVec.ofNat 32 val), shell_of_accepted (accepted_low_iff.mpr hval) s, toNat_ofNat_word hval,
      toNat_ofNat_word hval, rfl⟩
  · exact ⟨s.patchMem (BitVec.ofNat 32 reg) (BitVec.ofNat 32 val),
      shell_of_accepted (accepted_memoryPatch_iff.mpr ⟨hreg, hval⟩) s, rfl, fun hm => storesBytes_store hm _ _ _⟩
  · exact shell_of_not_accepted (by rw [accepted_input_iff]; omega) s
  · have hlarge : ¬ val < 2 ^ 32 := Nat.not_lt.mpr hval
    exact ⟨shell_of_not_accepted (hlarge ∘ accepted_high_iff.mp) s,
      shell_of_not_accepted (hlarge ∘ accepted_low_iff.mp) s⟩

/-- Settles O58: the two sides of the RunFlag. -/
theorem explicitStop : Obligations.ExplicitStop := fun _ => ⟨fun hrun => if_pos hrun, externalStop_of_stopped⟩

/-! ### The memory dump -/

theorem wordsFrom_getElem? (s : State) (a : Word) (n k : Nat) :
    (s.wordsFrom a n)[k]? =
      if k < n then some (a + BitVec.ofNat 32 (4 * k), s.load (a + BitVec.ofNat 32 (4 * k)) 4) else none := by
  induction n generalizing a k with
  | zero => rfl
  | succ n ih =>
    cases k with
    | zero => simp [State.wordsFrom]
    | succ k =>
      rw [State.wordsFrom, List.getElem?_cons_succ, ih, add_four_add_offset]
      simp only [Nat.add_lt_add_iff_right]

theorem memoryDump_getElem? (s : State) {start stop : Nat} (hstart : start < 2 ^ 32) (hstop : stop < 2 ^ 32) (k : Nat) :
    (s.memoryDump (BitVec.ofNat 32 start) (BitVec.ofNat 32 stop))[k]? =
      if start + 4 * k ≤ stop then
        some (BitVec.ofNat 32 (start + 4 * k), s.load (BitVec.ofNat 32 (start + 4 * k)) 4) else none := by
  simp only [State.memoryDump, BitVec.le_def, toNat_ofNat_word hstart, toNat_ofNat_word hstop, BitVec.ofNat_add]
  by_cases hrange : start ≤ stop
  · rw [if_pos hrange, wordsFrom_getElem?]
    exact if_congr (by omega) rfl rfl
  · rw [if_neg hrange, if_neg (by omega)]
    rfl

/-- Settles O59: word k of the dump stands 4k past its start, and the range bounds k. -/
theorem memoryDumpReadsTheRange : Obligations.MemoryDumpReadsTheRange := by
  intro s start stop hstart hstop
  refine ⟨_, shell_of_accepted (accepted_mdump_iff.mpr ⟨hstart, hstop⟩) s, fun k => ?_⟩
  rw [memoryDump_getElem? s hstart hstop]
  exact ⟨fun h => if_pos h, fun h => if_neg h⟩

end Sys2Proof.Machine
end
